-- ==== Sys2Proof/Word.lean ====
section
/-!
DEFINITION. The words of mame-x CORE and the two fixed parameters of its widths (00_scope.md R8, R53).
-/
namespace Sys2Proof

/-- A byte: a bank cell, a port value, a blob byte. -/
abbrev Byte := BitVec 8

/-- A 32-bit value: an address, an offset, the M and D fields of a transaction. -/
abbrev Word := BitVec 32

/-- The transaction word TXN (R81). -/
abbrev Txn := BitVec 80

/-- The response word RSP (R84). -/
abbrev Rsp := BitVec 40

/-- The Region Installer command word CMD (R85). -/
abbrev Cmd := BitVec 100

/-- A byte string on the blob port (R80 item 4, R183). -/
abbrev Blob := List Byte

end Sys2Proof
end

