-- ==== Sys2Proof/Config.lean ====
section
/-!
DEFINITION. What an implementation fixes: the constants of 00_scope.md R8 and the parameters of R9.
The parameters are data; a state carries them in one field that no step changes (log 1).
-/
namespace Sys2Proof

/-- NDEV of R8: logical sub-devices of the configuration-port bank. -/
def ndev : Nat := 16

/-- NREG of R8: registers per sub-device. -/
def nreg : Nat := 256

/-- Cells of the bank: NDEV × NREG (R30). -/
def bankSize : Nat := ndev * nreg

/-- SHARED_MAX of R8: indices 0x00 to 0x2F always reach device 0. -/
def sharedMax : Byte := 0x2F

/-- The values of ADDR_WIDTH that are supported: 32 and no other (R9; 92_eei_decisions.md D38; log 2). -/
inductive AddrWidth where
  | bits32
deriving DecidableEq, Repr

/-- ADDR_WIDTH as a number. -/
def AddrWidth.bits : AddrWidth → Nat
  | .bits32 => 32

/-- Length in bytes of the snapshot blob of EXEMPLAR_NB (R183). -/
def blobLength : Nat := 4120

/-- The parameters of R9 but for the tables SCHEMA and RULES, which are the fields of `Machine.Tables` (log 2). BANK_RESET is held as the list of its cells that are not 0x00 (log 8). -/
structure Config where
  /-- ADDR_WIDTH, the width of the decoded physical address space. -/
  addrWidth : AddrWidth
  /-- RAM_SIZE, bytes of the backing RAM buffer. -/
  ramSize : Nat
  /-- UNLOCK_BYTE, the key that unlocks the configuration port. -/
  unlockByte : Byte
  /-- LOCK_BYTE, the key that locks it. -/
  lockByte : Byte
  /-- DEVSEL_INDEX, the index whose data write selects the device. -/
  devselIndex : Byte
  /-- KEY_LATCHES_INDEX, whether a key write also stores the byte in CP.idx. -/
  keyLatchesIndex : Bool
  /-- DEVICE_ID, read by DEVID. -/
  deviceId : Word
  /-- REVISION_ID, read by REVID. -/
  revisionId : Byte
  /-- TOM_RESET, the reset value of TOM. -/
  tomReset : BitVec 16
  /-- ALIAS_BACKING, the backing offset of the high SMRAM alias. -/
  aliasBacking : Word
  /-- BANK_RESET, the reset image of the configuration-port bank. -/
  bankReset : List Host.Cell
deriving DecidableEq, Repr

/-- The defaults of R9. -/
def Config.default : Config where
  addrWidth := .bits32
  ramSize := 0x04000000
  unlockByte := 0x55
  lockByte := 0xAA
  devselIndex := 0x07
  keyLatchesIndex := false
  deviceId := 0x00000000
  revisionId := 0x00
  tomReset := 0x0020
  aliasBacking := 0x000A0000
  bankReset := []

/-- The last address of the decoded space, 2^ADDR_WIDTH - 1 (R9, R53). -/
def addrMax (cfg : Config) : Nat := 2 ^ cfg.addrWidth.bits - 1

end Sys2Proof
end

