-- ==== Sys2Proof/Machine/Memory.lean ====
section
/-!
DEFINITION. The bank of the configuration port as a memory of 4096 bytes (10_state.md R30, R31): the list of the cells
that are not 0x00, addresses strictly rising (log 8).
-/
namespace Sys2Proof.Machine

/-- The listed cells of a bank. -/
abbrev Memory := List Host.Cell

/-- What an unlisted cell reads as: 0x00, the default of BANK_RESET (R37; log 8). -/
def Memory.unlisted : Byte := 0x00

/-- The byte at address `a`. -/
def Memory.read : Memory → Nat → Byte
  | [], _ => Memory.unlisted
  | (b, v) :: m, a => if b = a then v else Memory.read m a

/-- Store `v` at address `a`, keeping the canonical form: the list stays sorted and a cell that would read as an
unlisted one is taken out. -/
def Memory.write : Memory → Nat → Byte → Memory
  | [], a, v => if v = Memory.unlisted then [] else [(a, v)]
  | (b, w) :: m, a, v =>
    if a < b then (if v = Memory.unlisted then (b, w) :: m else (a, v) :: (b, w) :: m)
    else if a = b then (if v = Memory.unlisted then m else (a, v) :: m)
    else (b, w) :: Memory.write m a v

/-- Every listed address is at least `lo` and below the size of the bank, addresses rise strictly, and no listed cell
reads as an unlisted one. -/
def Memory.wfFrom : Nat → Memory → Bool
  | _, [] => true
  | lo, (a, v) :: m => decide (lo ≤ a) && decide (a < bankSize) && decide (v ≠ Memory.unlisted) && Memory.wfFrom (a + 1) m

/-- The canonical form of a bank. -/
def Memory.wf (m : Memory) : Bool := Memory.wfFrom 0 m

/-- The memory that holds the bytes `bs` at the addresses from `a` on. -/
def Memory.ofBytesAt : Nat → List Byte → Memory
  | _, [] => []
  | a, b :: bs => if b = Memory.unlisted then Memory.ofBytesAt (a + 1) bs else (a, b) :: Memory.ofBytesAt (a + 1) bs

/-- The `n` bytes from address `a` on. -/
def Memory.bytesFrom (m : Memory) : Nat → Nat → List Byte
  | _, 0 => []
  | a, n + 1 => m.read a :: m.bytesFrom (a + 1) n

/-- The address of cell `[d][i]`: device-major, as in the blob (R183). -/
def cellAddress (d : BitVec 4) (i : Byte) : Nat := nreg * d.toNat + i.toNat

end Sys2Proof.Machine
end

