-- ==== Sys2Proof/Syntax.lean ====
section
/-!
DEFINITION. The nine transactions of the operation map (30_encoding.md R82), one constructor per row of
spec/opcode_table.json, with the operands of R83. Fields an operation does not use are no part of the syntax (log 9).
-/
namespace Sys2Proof

/-- The port select A[0] of IORD and IOWR (R52, R83). -/
inductive Port where
  | index
  | data
deriving DecidableEq, Repr

/-- The direction A[0] of LOOKUP (R83). -/
inductive Dir where
  | read
  | write
deriving DecidableEq, Repr

/-- One transaction. A register is named by its 8-bit id: whether the id is in the schema is the first thing the
meanings of CFGRD and CFGWR decide (R101, R102, R196). -/
inductive Instr where
  /-- NOP (R100). -/
  | nop
  /-- CFGRD: read register `id` (R101). -/
  | cfgrd (id : Byte)
  /-- CFGWR: write register `id` with the fields D and M (R102). -/
  | cfgwr (id : Byte) (data mask : Word)
  /-- IORD: read a configuration port (R162). -/
  | iord (port : Port)
  /-- IOWR: write byte `v` to a configuration port (R161). -/
  | iowr (port : Port) (v : Byte)
  /-- LOOKUP: where an access to `addr` goes (R141). -/
  | lookup (dir : Dir) (addr : Word)
  /-- RESET (R180). -/
  | reset
  /-- SNAPSHOT (R181). -/
  | snapshot
  /-- RESTORE (R182). -/
  | restore
deriving DecidableEq, Repr

end Sys2Proof
end

