-- ==== Sys2Proof/Decode.lean ====
section
/-!
DEFINITION. The transaction word TXN and its two directions: the decoder, total on every 80-bit word and rejecting
reserved words by name, and the encoder (30_encoding.md R81 to R83, R86, R88).
-/
namespace Sys2Proof

/-- Why a word is reserved (R86). -/
inductive DecodeError where
  /-- OP is 0x9 to 0xF. -/
  | reservedOp (op : BitVec 4)
  /-- The field Z is not 0. -/
  | nonzeroZ (z : BitVec 4)
deriving DecidableEq, Repr

/-- OP, bits [79:76] of TXN (R81). -/
def Txn.op (w : Txn) : BitVec 4 := w.extractLsb' 76 4

/-- Z, bits [75:72] of TXN (R81). -/
def Txn.z (w : Txn) : BitVec 4 := w.extractLsb' 72 4

/-- A, bits [71:64] of TXN (R81). -/
def Txn.a (w : Txn) : Byte := w.extractLsb' 64 8

/-- M, bits [63:32] of TXN (R81). -/
def Txn.m (w : Txn) : Word := w.extractLsb' 32 32

/-- D, bits [31:0] of TXN (R81). -/
def Txn.d (w : Txn) : Word := w.extractLsb' 0 32

/-- The port select is A[0]; A[7:1] is ignored (R83). -/
def portOfA (a : Byte) : Port := if a.getLsbD 0 then .data else .index

/-- The direction is A[0]; A[7:1] is ignored (R83). -/
def dirOfA (a : Byte) : Dir := if a.getLsbD 0 then .write else .read

/-- The byte of an IOWR is D[7:0]; D[31:8] is ignored (R83). -/
def byteOfD (d : Word) : Byte := d.extractLsb' 0 8

/-- The operation map of R82, with its operands of R83, for the code `OP` of a word whose Z is 0. -/
def decodeOp (w : Txn) : Except DecodeError Instr :=
  match w.op.toNat with
  | 0 => .ok .nop
  | 1 => .ok (.cfgrd w.a)
  | 2 => .ok (.cfgwr w.a w.d w.m)
  | 3 => .ok (.iord (portOfA w.a))
  | 4 => .ok (.iowr (portOfA w.a) (byteOfD w.d))
  | 5 => .ok (.lookup (dirOfA w.a) w.d)
  | 6 => .ok .reset
  | 7 => .ok .snapshot
  | 8 => .ok .restore
  | _ => .error (.reservedOp w.op)

/-- The transaction a word stands for, or the reason it is reserved (R82, R86). -/
def decode (w : Txn) : Except DecodeError Instr :=
  if w.z = 0 then decodeOp w else .error (.nonzeroZ w.z)

/-- A[0] of a port operand (R83). -/
def aOfPort : Port → Byte
  | .index => 0
  | .data => 1

/-- A[0] of a direction operand (R83). -/
def aOfDir : Dir → Byte
  | .read => 0
  | .write => 1

/-- The code OP of each operation (R82). -/
def Instr.op : Instr → BitVec 4
  | .nop => 0x0
  | .cfgrd _ => 0x1
  | .cfgwr _ _ _ => 0x2
  | .iord _ => 0x3
  | .iowr _ _ => 0x4
  | .lookup _ _ => 0x5
  | .reset => 0x6
  | .snapshot => 0x7
  | .restore => 0x8

/-- TXN from its fields, Z = 0 (R81). -/
def packTxn (op : BitVec 4) (a : Byte) (m d : Word) : Txn := op ++ (0 : BitVec 4) ++ a ++ m ++ d

/-- The word of a transaction; fields an operation does not use are written as 0 (R82). -/
def encode (i : Instr) : Txn :=
  match i with
  | .nop => packTxn i.op 0 0 0
  | .cfgrd id => packTxn i.op id 0 0
  | .cfgwr id data mask => packTxn i.op id mask data
  | .iord p => packTxn i.op (aOfPort p) 0 0
  | .iowr p v => packTxn i.op (aOfPort p) 0 (v.setWidth 32)
  | .lookup dir addr => packTxn i.op (aOfDir dir) 0 addr
  | .reset => packTxn i.op 0 0 0
  | .snapshot => packTxn i.op 0 0 0
  | .restore => packTxn i.op 0 0 0

/-- The bits of a word that the decoder reads for an operation: OP and Z always, and the operand fields of R82, R83. -/
def Instr.usedBits : Instr → Txn
  | .nop => 0xFF000000000000000000
  | .cfgrd _ => 0xFFFF0000000000000000
  | .cfgwr _ _ _ => 0xFFFFFFFFFFFFFFFFFFFF
  | .iord _ => 0xFF010000000000000000
  | .iowr _ _ => 0xFF0100000000000000FF
  | .lookup _ _ => 0xFF0100000000FFFFFFFF
  | .reset => 0xFF000000000000000000
  | .snapshot => 0xFF000000000000000000
  | .restore => 0xFF000000000000000000

/-- The request word with the low `nbits` bits of `w`, every bit above them 0. TXN is one 80-bit word, numbered as the
table numbers it (R81, R88), so nothing is laid out in bytes (log 10). -/
def txnOfBits (nbits w : Nat) : Txn := BitVec.ofNat 80 (w % 2 ^ nbits)

/-- The decoder's answer for the table word whose bits are `w`. -/
def decodeTableWord (nbits w : Nat) : Option Instr :=
  match decode (txnOfBits nbits w) with
  | .ok i => some i
  | .error _ => none

end Sys2Proof
end

