-- ==== Sys2Proof/Machine/Registers.lean ====
section
/-!
DEFINITION. The registers of EXEMPLAR_NB (10_state.md R11 to R27): the closed register-ID type, the stored values, each at
its own width, and each register's attributes as R14 tabulates them. Flags.lean gathers the attributes in the table
SCHEMA, which the operations take as an argument.
-/
namespace Sys2Proof.Machine

/-- The registers of kind CONST: no storage, a read returns a constant (R13, R15, R16). -/
inductive ConstReg where
  | devid
  | revid
deriving DecidableEq, Repr

/-- The registers of kind STORAGE, in ascending id order (R14). -/
inductive StorageReg where
  | apbase
  | lockctl
  | tom
  | pam1
  | pam2
  | pam3
  | pam4
  | pam5
  | pam6
  | pam7
  | smramc
  | esmramc
  | apsize
  | scratch
deriving DecidableEq, Repr

/-- A register of a schema, by its kind (R11); by default of EXEMPLAR_NB. -/
inductive Reg (C : Type := ConstReg) (S : Type := StorageReg) where
  | const (c : C)
  | storage (r : S)
deriving DecidableEq, Repr

/-- A bit that locks registers (R18, R21, R26). -/
inductive LockBit where
  | pamLck
  | memLck
  | apLck
  | lckLck
  | dLck
deriving DecidableEq, Repr

/-- The stored values, one field per STORAGE register, at the widths of R14. -/
structure RegFile where
  apbase : BitVec 32
  lockctl : BitVec 8
  tom : BitVec 16
  pam1 : BitVec 8
  pam2 : BitVec 8
  pam3 : BitVec 8
  pam4 : BitVec 8
  pam5 : BitVec 8
  pam6 : BitVec 8
  pam7 : BitVec 8
  smramc : BitVec 8
  esmramc : BitVec 8
  apsize : BitVec 8
  scratch : BitVec 32
deriving DecidableEq, Repr

/-- The STORAGE registers in ascending id order, the order of the blob (R14, R183). -/
def storageRegs : List StorageReg :=
  [.apbase, .lockctl, .tom, .pam1, .pam2, .pam3, .pam4, .pam5, .pam6, .pam7, .smramc, .esmramc, .apsize, .scratch]

/-- The id of a CONST register (R14). -/
def ConstReg.id : ConstReg → Byte
  | .devid => 0x00
  | .revid => 0x08

/-- The id of a STORAGE register (R14). -/
def StorageReg.id : StorageReg → Byte
  | .apbase => 0x10
  | .lockctl => 0x50
  | .tom => 0x52
  | .pam1 => 0x59
  | .pam2 => 0x5A
  | .pam3 => 0x5B
  | .pam4 => 0x5C
  | .pam5 => 0x5D
  | .pam6 => 0x5E
  | .pam7 => 0x5F
  | .smramc => 0x72
  | .esmramc => 0x73
  | .apsize => 0xB4
  | .scratch => 0xF0

/-- The id of a register (R14). -/
def Reg.id : Reg → Byte
  | .const c => c.id
  | .storage r => r.id

/-- The schema: the register an id names, none for an id that is no register (R14, R87). -/
def regOfId (id : Byte) : Option Reg :=
  match id.toNat with
  | 0x00 => some (.const .devid)
  | 0x08 => some (.const .revid)
  | 0x10 => some (.storage .apbase)
  | 0x50 => some (.storage .lockctl)
  | 0x52 => some (.storage .tom)
  | 0x59 => some (.storage .pam1)
  | 0x5A => some (.storage .pam2)
  | 0x5B => some (.storage .pam3)
  | 0x5C => some (.storage .pam4)
  | 0x5D => some (.storage .pam5)
  | 0x5E => some (.storage .pam6)
  | 0x5F => some (.storage .pam7)
  | 0x72 => some (.storage .smramc)
  | 0x73 => some (.storage .esmramc)
  | 0xB4 => some (.storage .apsize)
  | 0xF0 => some (.storage .scratch)
  | _ => none

/-- The width of a CONST register (R14). -/
def ConstReg.width : ConstReg → Nat
  | .devid => 32
  | .revid => 8

/-- The width of a STORAGE register (R14). -/
def StorageReg.width : StorageReg → Nat
  | .apbase => 32
  | .lockctl => 8
  | .tom => 16
  | .pam1 => 8
  | .pam2 => 8
  | .pam3 => 8
  | .pam4 => 8
  | .pam5 => 8
  | .pam6 => 8
  | .pam7 => 8
  | .smramc => 8
  | .esmramc => 8
  | .apsize => 8
  | .scratch => 32

/-- The width of a register (R14). -/
def Reg.width : Reg → Nat
  | .const c => c.width
  | .storage r => r.width

/-- What a read of a CONST register returns (R13, R15, R16). -/
def ConstReg.value (cfg : Config) : (c : ConstReg) → BitVec c.width
  | .devid => cfg.deviceId
  | .revid => cfg.revisionId

/-- The write-mask: a 1 marks a bit a write may change (R11, R14). -/
def StorageReg.writeMask : (r : StorageReg) → BitVec r.width
  | .apbase => 0xFFC00000#32
  | .lockctl => 0x87#8
  | .tom => 0x0FFF#16
  | .pam1 => 0x33#8
  | .pam2 => 0x33#8
  | .pam3 => 0x33#8
  | .pam4 => 0x33#8
  | .pam5 => 0x33#8
  | .pam6 => 0x33#8
  | .pam7 => 0x33#8
  | .smramc => 0x58#8
  | .esmramc => 0x27#8
  | .apsize => 0x8F#8
  | .scratch => 0xFFFFFFFF#32

/-- The reset value (R14, R36). -/
def StorageReg.resetValue (cfg : Config) : (r : StorageReg) → BitVec r.width
  | .apbase => 0x00000000#32
  | .lockctl => 0x00#8
  | .tom => cfg.tomReset
  | .pam1 => 0x00#8
  | .pam2 => 0x00#8
  | .pam3 => 0x00#8
  | .pam4 => 0x00#8
  | .pam5 => 0x00#8
  | .pam6 => 0x00#8
  | .pam7 => 0x00#8
  | .smramc => 0x00#8
  | .esmramc => 0x00#8
  | .apsize => 0x00#8
  | .scratch => 0x00000000#32

/-- The bit whose being 1 is the register's lock predicate, none where it has no predicate (R14, R26). -/
def StorageReg.lock : StorageReg → Option LockBit
  | .apbase => some .apLck
  | .lockctl => some .lckLck
  | .tom => some .memLck
  | .pam1 => some .pamLck
  | .pam2 => some .pamLck
  | .pam3 => some .pamLck
  | .pam4 => some .pamLck
  | .pam5 => some .pamLck
  | .pam6 => some .pamLck
  | .pam7 => some .pamLck
  | .smramc => some .dLck
  | .esmramc => some .dLck
  | .apsize => some .apLck
  | .scratch => none

/-- Whether a write to the register runs the resolver (R14, R27). -/
def StorageReg.decodeRelevant : StorageReg → Bool
  | .apbase => true
  | .lockctl => false
  | .tom => true
  | .pam1 => true
  | .pam2 => true
  | .pam3 => true
  | .pam4 => true
  | .pam5 => true
  | .pam6 => true
  | .pam7 => true
  | .smramc => true
  | .esmramc => true
  | .apsize => true
  | .scratch => false

/-- RF[id], the stored value of a STORAGE register. -/
def RegFile.get (rf : RegFile) : (r : StorageReg) → BitVec r.width
  | .apbase => rf.apbase
  | .lockctl => rf.lockctl
  | .tom => rf.tom
  | .pam1 => rf.pam1
  | .pam2 => rf.pam2
  | .pam3 => rf.pam3
  | .pam4 => rf.pam4
  | .pam5 => rf.pam5
  | .pam6 => rf.pam6
  | .pam7 => rf.pam7
  | .smramc => rf.smramc
  | .esmramc => rf.esmramc
  | .apsize => rf.apsize
  | .scratch => rf.scratch

/-- RF[id] <- v. -/
def RegFile.set (rf : RegFile) : (r : StorageReg) → BitVec r.width → RegFile
  | .apbase, v => { rf with apbase := v }
  | .lockctl, v => { rf with lockctl := v }
  | .tom, v => { rf with tom := v }
  | .pam1, v => { rf with pam1 := v }
  | .pam2, v => { rf with pam2 := v }
  | .pam3, v => { rf with pam3 := v }
  | .pam4, v => { rf with pam4 := v }
  | .pam5, v => { rf with pam5 := v }
  | .pam6, v => { rf with pam6 := v }
  | .pam7, v => { rf with pam7 := v }
  | .smramc, v => { rf with smramc := v }
  | .esmramc, v => { rf with esmramc := v }
  | .apsize, v => { rf with apsize := v }
  | .scratch, v => { rf with scratch := v }

/-- The register file whose register `r` holds `f r`. -/
def RegFile.ofValues (f : (r : StorageReg) → BitVec r.width) : RegFile where
  apbase := f .apbase
  lockctl := f .lockctl
  tom := f .tom
  pam1 := f .pam1
  pam2 := f .pam2
  pam3 := f .pam3
  pam4 := f .pam4
  pam5 := f .pam5
  pam6 := f .pam6
  pam7 := f .pam7
  smramc := f .smramc
  esmramc := f .esmramc
  apsize := f .apsize
  scratch := f .scratch

/-- The offset of a STORAGE register in the blob (R183). -/
def StorageReg.blobOffset : StorageReg → Nat
  | .apbase => 0x0000
  | .lockctl => 0x0004
  | .tom => 0x0005
  | .pam1 => 0x0007
  | .pam2 => 0x0008
  | .pam3 => 0x0009
  | .pam4 => 0x000A
  | .pam5 => 0x000B
  | .pam6 => 0x000C
  | .pam7 => 0x000D
  | .smramc => 0x000E
  | .esmramc => 0x000F
  | .apsize => 0x0010
  | .scratch => 0x0011

/-- The name of a register (R14, R89). -/
def Reg.name : Reg → String
  | .const .devid => "DEVID"
  | .const .revid => "REVID"
  | .storage .apbase => "APBASE"
  | .storage .lockctl => "LOCKCTL"
  | .storage .tom => "TOM"
  | .storage .pam1 => "PAM1"
  | .storage .pam2 => "PAM2"
  | .storage .pam3 => "PAM3"
  | .storage .pam4 => "PAM4"
  | .storage .pam5 => "PAM5"
  | .storage .pam6 => "PAM6"
  | .storage .pam7 => "PAM7"
  | .storage .smramc => "SMRAMC"
  | .storage .esmramc => "ESMRAMC"
  | .storage .apsize => "APSIZE"
  | .storage .scratch => "SCRATCH"

/-- The merge law of R104: a bit is written only if the access mask and the write-mask both select it. -/
def mergeMasked {w : Nat} (old data mask writeMask : BitVec w) : BitVec w :=
  let eff := mask &&& writeMask
  (old &&& ~~~eff) ||| (data &&& eff)

/-- What a RESTORE loads into a register: the write-mask bits of the raw value, the reset value elsewhere (R182). -/
def sanitise {w : Nat} (raw writeMask reset : BitVec w) : BitVec w :=
  (raw &&& writeMask) ||| (reset &&& ~~~writeMask)

end Sys2Proof.Machine
end

