-- ==== Sys2Proof/Machine/Flags.lean ====
section
/-!
DEFINITION. The fields of the registers that act as flags: the lock bits and the predicates they form (10_state.md R26,
R29), and the enable and size fields the Decode Rules read (R17 to R23). The core has no condition codes (R29). With the
lock predicates the table SCHEMA is complete (00_scope.md R5, R9).
-/
namespace Sys2Proof.Machine

/-- LOCKCTL.PAM_LCK, bit 0 (R18). -/
def RegFile.pamLck (rf : RegFile) : Bool := rf.lockctl.getLsbD 0

/-- LOCKCTL.MEM_LCK, bit 1 (R18). -/
def RegFile.memLck (rf : RegFile) : Bool := rf.lockctl.getLsbD 1

/-- LOCKCTL.AP_LCK, bit 2 (R18). -/
def RegFile.apLck (rf : RegFile) : Bool := rf.lockctl.getLsbD 2

/-- LOCKCTL.LCK_LCK, bit 7 (R18). -/
def RegFile.lckLck (rf : RegFile) : Bool := rf.lockctl.getLsbD 7

/-- SMRAMC.VSMR_EN, bit 3 (R21). -/
def RegFile.vsmrEn (rf : RegFile) : Bool := rf.smramc.getLsbD 3

/-- SMRAMC.D_LCK, bit 4 (R21). -/
def RegFile.dLck (rf : RegFile) : Bool := rf.smramc.getLsbD 4

/-- SMRAMC.D_OPEN, bit 6 (R21). -/
def RegFile.dOpen (rf : RegFile) : Bool := rf.smramc.getLsbD 6

/-- ESMRAMC.T_EN, bit 0 (R22). -/
def RegFile.tEn (rf : RegFile) : Bool := rf.esmramc.getLsbD 0

/-- ESMRAMC.T_SZ, bits [2:1] (R22). -/
def RegFile.tSz (rf : RegFile) : BitVec 2 := rf.esmramc.extractLsb' 1 2

/-- ESMRAMC.SM_CACHE, bit 5 (R22). -/
def RegFile.smCache (rf : RegFile) : Bool := rf.esmramc.getLsbD 5

/-- APSIZE.APSZ, bits [3:0] (R23). -/
def RegFile.apSz (rf : RegFile) : BitVec 4 := rf.apsize.extractLsb' 0 4

/-- APSIZE.AP_EN, bit 7 (R23). -/
def RegFile.apEn (rf : RegFile) : Bool := rf.apsize.getLsbD 7

/-- TOM.TOP_MB, bits [11:0] (R19). -/
def RegFile.topMb (rf : RegFile) : BitVec 12 := rf.tom.extractLsb' 0 12

/-- The value of a lock bit (R18, R21). -/
def RegFile.lockBit (rf : RegFile) : LockBit → Bool
  | .pamLck => rf.pamLck
  | .memLck => rf.memLck
  | .apLck => rf.apLck
  | .lckLck => rf.lckLck
  | .dLck => rf.dLck

/-! ## The table SCHEMA (R5, R9, R11) -/

/-- A Register File schema: which registers there are, of which kind, and the attributes R11 gives each. The closed
register-ID type (R5) is its own, split by kind; `Values` is the type of the stored values, plain data with one value for
each STORAGE register. A schema is a parameter of the construction, not state (R5, R40; log 2). -/
structure Schema where
  /-- The registers of kind CONST. -/
  ConstId : Type
  /-- The registers of kind STORAGE. -/
  StorageId : Type
  /-- The type of RF. -/
  Values : Type
  /-- The names. -/
  name : Reg ConstId StorageId → String
  /-- The ids: the register an id names, none for an id that is no register. -/
  regOfId : Byte → Option (Reg ConstId StorageId)
  /-- The bit-width of a CONST register. -/
  constWidth : ConstId → Nat
  /-- What a read of a CONST register returns. -/
  constValue : Config → (c : ConstId) → BitVec (constWidth c)
  /-- The bit-width of a STORAGE register. -/
  width : StorageId → Nat
  /-- The write-mask. -/
  writeMask : (r : StorageId) → BitVec (width r)
  /-- The reset value. -/
  resetValue : Config → (r : StorageId) → BitVec (width r)
  /-- The lock predicate, a Boolean function of the current values, none where the register has none (R26). -/
  lock : StorageId → Option (Values → Bool)
  /-- Whether a write to the register runs the resolver. -/
  decodeRelevant : StorageId → Bool
  /-- RF[r]. -/
  get : Values → (r : StorageId) → BitVec (width r)
  /-- RF[r] <- v. -/
  set : Values → (r : StorageId) → BitVec (width r) → Values
  /-- The values of which register `r` holds `f r`. -/
  ofValues : ((r : StorageId) → BitVec (width r)) → Values
  /-- The STORAGE registers in ascending id order, the order of the blob (R183). -/
  storageIds : List StorageId
  /-- The offset of a STORAGE register in the blob (R183). -/
  blobOffset : StorageId → Nat

/-- The schema EXEMPLAR_NB, the default of SCHEMA (R14). -/
abbrev exemplarSchema : Schema where
  ConstId := ConstReg
  StorageId := StorageReg
  Values := RegFile
  name := Reg.name
  regOfId := Sys2Proof.Machine.regOfId
  constWidth := ConstReg.width
  constValue cfg c := c.value cfg
  width := StorageReg.width
  writeMask r := r.writeMask
  resetValue cfg r := r.resetValue cfg
  lock r := r.lock.map fun b rf => rf.lockBit b
  decodeRelevant r := r.decodeRelevant
  get := RegFile.get
  set := RegFile.set
  ofValues := RegFile.ofValues
  storageIds := storageRegs
  blobOffset := StorageReg.blobOffset

/-- The lock predicate of a register on the current values; false where it has none (R26). -/
def Schema.locked (schema : Schema) (rf : schema.Values) (r : schema.StorageId) : Bool :=
  match schema.lock r with
  | none => false
  | some p => p rf

/-- The Register File after reset (R36). -/
def Schema.resetValues (schema : Schema) (cfg : Config) : schema.Values := schema.ofValues fun r => schema.resetValue cfg r

/-- The size in bytes of a STORAGE register in the blob (R183). -/
def Schema.blobSize (schema : Schema) (r : schema.StorageId) : Nat := schema.width r / 8

/-- The bytes the STORAGE registers take in the blob: 21 in EXEMPLAR_NB (R14, R183). -/
def Schema.blobRegBytes (schema : Schema) : Nat := (schema.storageIds.map schema.blobSize).sum

/-- The lock predicate of a register of EXEMPLAR_NB. -/
def RegFile.locked (rf : RegFile) (r : StorageReg) : Bool := exemplarSchema.locked rf r

/-- The Register File of EXEMPLAR_NB after reset. -/
def resetRegFile (cfg : Config) : RegFile := exemplarSchema.resetValues cfg

end Sys2Proof.Machine
end

