-- ==== Sys2Proof/Machine/Operands.lean ====
section
/-!
DEFINITION. Operand assembly of CFGWR (30_encoding.md R83), the codes of modes and routes (R91), what each mode does
with a read and with a write (20_memory.md R61), and the packing of RSP (R84) and CMD (R85).
-/
namespace Sys2Proof.Machine

/-- The five access modes (R8, R61). -/
inductive Mode where
  | hidden
  | romShadow
  | writeOnlyShadow
  | ram
  | passThrough
deriving DecidableEq, Repr

/-- Where an access goes (R91). -/
inductive Route where
  | fallthrough
  | rambuf
  | ext
  | drop
deriving DecidableEq, Repr

/-- One entry of the Region Installation: an inclusive range, its mode, its backing offset (R33). -/
structure Region where
  start : Word
  last : Word
  mode : Mode
  backing : Word
deriving DecidableEq, Repr

/-- The fields of a response (R84). -/
structure Response where
  route : Route
  mode : Mode
  val : Word
deriving DecidableEq, Repr

/-- A command to the Region Installer (R85). -/
inductive Command where
  | uninstallAll
  | install (r : Region)
deriving DecidableEq, Repr

/-- The mode code (R91). -/
def Mode.code : Mode → BitVec 3
  | .hidden => 0
  | .romShadow => 1
  | .writeOnlyShadow => 2
  | .ram => 3
  | .passThrough => 4

/-- The route code (R91). -/
def Route.code : Route → BitVec 2
  | .fallthrough => 0
  | .rambuf => 1
  | .ext => 2
  | .drop => 3

/-- The mode of a PAM sub-range from its two bits `{WE, RE}`, which are the mode code (R20, R135). -/
def Mode.ofEnables (we re : Bool) : Mode :=
  match we, re with
  | false, false => .hidden
  | false, true => .romShadow
  | true, false => .writeOnlyShadow
  | true, true => .ram

/-- Whether a mode is backed by the RAM buffer, so that the top-of-memory clamp cuts it (R125). -/
def Mode.ramBacked : Mode → Bool
  | .ram => true
  | .romShadow => true
  | .writeOnlyShadow => true
  | .hidden => false
  | .passThrough => false

/-- What a mode does with a read and with a write (R61, R141). -/
def Mode.route : Mode → Dir → Route
  | .ram, .read => .rambuf
  | .ram, .write => .rambuf
  | .romShadow, .read => .rambuf
  | .romShadow, .write => .drop
  | .writeOnlyShadow, .read => .fallthrough
  | .writeOnlyShadow, .write => .rambuf
  | .hidden, .read => .fallthrough
  | .hidden, .write => .fallthrough
  | .passThrough, .read => .ext
  | .passThrough, .write => .ext

/-- Whether a route carries the offset in VAL: not FALLTHROUGH, not DROP (R84). -/
def Route.carriesOffset : Route → Bool
  | .fallthrough => false
  | .rambuf => true
  | .ext => true
  | .drop => false

/-- The response of an operation other than LOOKUP: route and mode 0 (R84). -/
def plainResponse (val : Word) : Response := { route := .fallthrough, mode := .hidden, val := val }

/-- RSP: three zero bits, ROUTE, MODE, VAL (R84). -/
def Response.pack (r : Response) : Rsp := (0 : BitVec 3) ++ r.route.code ++ r.mode.code ++ r.val

/-- CMD: KIND, MODE, START, END, BACKING; all zero for UNINSTALL_ALL (R85). -/
def Command.pack : Command → Cmd
  | .uninstallAll => 0
  | .install r => (1 : BitVec 1) ++ r.mode.code ++ r.start ++ r.last ++ r.backing

/-- The low W bits of a 32-bit field, the operand of a register of width W; the bits above are ignored (R83). -/
def operandAt (w : Nat) (field : Word) : BitVec w := field.setWidth w

/-- The value a CFGWR stores: the merge of R104 over the operands of R83. -/
def Schema.merged (schema : Schema) (rf : schema.Values) (r : schema.StorageId) (data mask : Word) :
    BitVec (schema.width r) :=
  mergeMasked (schema.get rf r) (operandAt (schema.width r) data) (operandAt (schema.width r) mask) (schema.writeMask r)

/-- The value a CFGRD answers: a CONST register's constant or a STORAGE register's value (R101). -/
def Schema.readReg (schema : Schema) (cfg : Config) (rf : schema.Values) (r : Reg schema.ConstId schema.StorageId) : Word :=
  match r with
  | .const c => (schema.constValue cfg c).setWidth 32
  | .storage r => (schema.get rf r).setWidth 32

/-- The value a CFGWR stores in a register of EXEMPLAR_NB. -/
def RegFile.merged (rf : RegFile) (r : StorageReg) (data mask : Word) : BitVec r.width :=
  exemplarSchema.merged rf r data mask

/-- The value a CFGRD of a register of EXEMPLAR_NB answers. -/
def RegFile.readReg (rf : RegFile) (cfg : Config) (r : Reg) : Word := exemplarSchema.readReg cfg rf r

end Sys2Proof.Machine
end

