-- ==== Sys2Proof/Machine/Resolver.lean ====
section
/-!
DEFINITION. The Remap Resolver and the Decode Rule Set of EXEMPLAR_NB (41_resolver.md R120 to R140). Everything is
computed in unbounded naturals and narrowed once, when the list is emitted (R142).
-/
namespace Sys2Proof.Machine

/-- What a matching Decode Rule contributes: an inclusive range, a mode and the backing offset of its start (R130). -/
structure Contribution where
  start : Nat
  last : Nat
  mode : Mode
  backing : Nat
deriving DecidableEq, Repr

/-- The 19 rules of EXEMPLAR_NB by name (R131). -/
inductive RuleName where
  | lowram
  | vidram
  | pam (j : Fin 14)
  | mainram
  | xsmram
  | aperture
deriving DecidableEq, Repr

/-- A Decode Rule over a type of register values, by default those of EXEMPLAR_NB: the record `(name, index, eval, clamp)`
of R130; `eval` reads the parameters and the registers. -/
structure DecodeRule (RF : Type := RegFile) where
  name : String
  /-- Its place in the declared priority order. -/
  index : Nat
  /-- None when the predicate is false or the enable bit is 0, else what the rule contributes (R126). -/
  eval : Config → RF → Option Contribution
  /-- Whether the top-of-memory clamp applies (R125). -/
  clamp : Bool

/-- A piece `(s, e, k)` of the working map: the addresses from `s` to `e` painted by rule `rule`, which contributed
`paint` (R120). -/
structure Piece (RF : Type := RegFile) where
  s : Nat
  e : Nat
  rule : DecodeRule RF
  paint : Contribution

/-! ## Quantities derived from registers (R132) -/

/-- TOMB: the first address that is not usable memory. -/
def RegFile.tomb (rf : RegFile) : Nat := rf.topMb.toNat <<< 20

/-- TSEG: the size of the window stolen from the top of main RAM. -/
def RegFile.tseg (rf : RegFile) : Nat := if rf.tEn then 0x20000 <<< rf.tSz.toNat else 0

/-- MAINTOP: TOMB less TSEG, saturating at 0. -/
def RegFile.mainTop (rf : RegFile) : Nat := rf.tomb - rf.tseg

/-- CL: the clamp value. -/
def clampValue (cfg : Config) (rf : RegFile) : Nat := min rf.tomb cfg.ramSize

/-- APCODE: size codes 7 to 15 act as 6. -/
def RegFile.apCode (rf : RegFile) : Nat := min rf.apSz.toNat 6

/-- APBYTES: the size of the aperture. -/
def RegFile.apBytes (rf : RegFile) : Nat := 0x00400000 <<< rf.apCode

/-! ## The rule table (R131, R133 to R138) -/

/-- The register of PAM sub-range `j`: PAMn with n = j div 2 + 1 (R135). -/
def RegFile.pamOf (rf : RegFile) (j : Fin 14) : Byte :=
  match j.val / 2 with
  | 0 => rf.pam1
  | 1 => rf.pam2
  | 2 => rf.pam3
  | 3 => rf.pam4
  | 4 => rf.pam5
  | 5 => rf.pam6
  | _ => rf.pam7

/-- The mode of PAM sub-range `j`: RE and WE are bits 0 and 1 of the register for an even `j`, bits 4 and 5 for an
odd one (R20, R135). -/
def RegFile.pamMode (rf : RegFile) (j : Fin 14) : Mode :=
  let lo := 4 * (j.val % 2)
  Mode.ofEnables ((rf.pamOf j).getLsbD (lo + 1)) ((rf.pamOf j).getLsbD lo)

/-- S_j: the first address of PAM sub-range `j` (R135). -/
def pamStart (j : Fin 14) : Nat := 0x000C0000 + j.val * 0x4000

/-- `eval` of a rule: none when its predicate is false or its enable bit is 0 (R126, R130, R131). -/
def RuleName.eval (cfg : Config) (rf : RegFile) : RuleName → Option Contribution
  | .lowram => if 0 < cfg.ramSize then some ⟨0x00000000, 0x0009FFFF, .ram, 0x00000000⟩ else none
  | .vidram => if rf.vsmrEn then some ⟨0x000A0000, 0x000BFFFF, .ram, 0x000A0000⟩ else none
  | .pam j => some ⟨pamStart j, pamStart j + 0x3FFF, rf.pamMode j, pamStart j⟩
  | .mainram => if 0x00100000 < rf.mainTop then some ⟨0x00100000, rf.mainTop - 1, .ram, 0x00100000⟩ else none
  | .xsmram =>
    if rf.dOpen && rf.smCache then some ⟨0xFEDA0000, 0xFEDBFFFF, .ram, cfg.aliasBacking.toNat⟩ else none
  | .aperture =>
    if rf.apEn then some ⟨rf.apbase.toNat, rf.apbase.toNat + rf.apBytes - 1, .passThrough, 0x00000000⟩ else none

/-- Whether the top-of-memory clamp applies to a rule (R125, R131). -/
def RuleName.clamp : RuleName → Bool
  | .lowram => true
  | .vidram => true
  | .pam _ => true
  | .mainram => true
  | .xsmram => false
  | .aperture => false

/-- The place of a rule in the declared priority order (R131). -/
def RuleName.index : RuleName → Nat
  | .lowram => 0
  | .vidram => 1
  | .pam j => 2 + j.val
  | .mainram => 16
  | .xsmram => 17
  | .aperture => 18

/-- The printed name of a rule (R131). -/
def RuleName.text : RuleName → String
  | .lowram => "LOWRAM"
  | .vidram => "VIDRAM"
  | .pam j => "PAM sub-range " ++ toString j.val
  | .mainram => "MAINRAM"
  | .xsmram => "XSMRAM"
  | .aperture => "APERTURE"

/-- The record of a rule (R130). -/
def RuleName.rule (k : RuleName) : DecodeRule where
  name := k.text
  index := k.index
  eval cfg rf := k.eval cfg rf
  clamp := k.clamp

/-- The rules in declared priority order, lowest first (R131). -/
def ruleTable : List RuleName :=
  [.lowram, .vidram,
   .pam 0, .pam 1, .pam 2, .pam 3, .pam 4, .pam 5, .pam 6, .pam 7, .pam 8, .pam 9, .pam 10, .pam 11, .pam 12, .pam 13,
   .mainram, .xsmram, .aperture]

/-- The rule table EXEMPLAR_NB, the default of RULES (R131). -/
def exemplarRules : List DecodeRule := ruleTable.map RuleName.rule

/-! ## The four steps (R120, R123 to R128), for any rule table over any type of register values (R5) -/

/-- What is left of a piece after `[s, e]` has been painted over it: nothing, one piece, or two (R124). -/
def Piece.cut {RF : Type} (s e : Nat) (p : Piece RF) : List (Piece RF) :=
  if p.s ≤ e ∧ s ≤ p.e then
    (if p.s < s then [{ p with e := s - 1 }] else []) ++ (if e < p.e then [{ p with s := e + 1 }] else [])
  else [p]

/-- Paint `[s, e]` for a rule over the working map: last-applied wins (R124). -/
def paintOver {RF : Type} (wk : List (Piece RF)) (p : Piece RF) : List (Piece RF) := wk.flatMap (Piece.cut p.s p.e) ++ [p]

/-- The piece a rule asks for, with the bounds clamp: the end is cut at 0xFFFFFFFF, the last address, a start beyond it contributes
nothing (R127). -/
def requestedPiece {RF : Type} (cfg : Config) (rf : RF) (k : DecodeRule RF) : Option (Piece RF) :=
  match k.eval cfg rf with
  | none => none
  | some c =>
    if addrMax cfg < c.start then none
    else some { s := c.start, e := min c.last (addrMax cfg), rule := k, paint := c }

/-- Step 2 for one rule (R124). -/
def paintRule {RF : Type} (cfg : Config) (rf : RF) (wk : List (Piece RF)) (k : DecodeRule RF) : List (Piece RF) :=
  match requestedPiece cfg rf k with
  | none => wk
  | some p => paintOver wk p

/-- Steps 1 and 2: start with the empty map and paint the rules in declared order (R123, R124). -/
def paintRules {RF : Type} (cfg : Config) (rf : RF) (rules : List (DecodeRule RF)) : List (Piece RF) :=
  rules.foldl (paintRule cfg rf) []

/-- Step 3, the top-of-memory clamp on one piece (R125). -/
def clampPiece {RF : Type} (cl : Nat) (p : Piece RF) : Option (Piece RF) :=
  if p.rule.clamp && p.paint.mode.ramBacked then
    if cl ≤ p.s then none
    else if cl ≤ p.e then some { p with e := cl - 1 }
    else some p
  else some p

/-- Put a piece into a list sorted by start. -/
def insertPiece {RF : Type} (p : Piece RF) : List (Piece RF) → List (Piece RF)
  | [] => [p]
  | q :: qs => if p.s ≤ q.s then p :: q :: qs else q :: insertPiece p qs

/-- The pieces sorted by start, ascending (R128). -/
def sortPieces {RF : Type} : List (Piece RF) → List (Piece RF)
  | [] => []
  | p :: ps => insertPiece p (sortPieces ps)

/-- The entry of a piece, none for a HIDDEN one; the backing offset is advanced by the distance from the rule's own
start (R128). -/
def Piece.entry {RF : Type} (p : Piece RF) : Option Region :=
  if p.paint.mode = .hidden then none
  else some
    { start := BitVec.ofNat 32 p.s
      last := BitVec.ofNat 32 p.e
      mode := p.paint.mode
      backing := BitVec.ofNat 32 (p.paint.backing + (p.s - p.paint.start)) }

/-- `resolve(RF)` over a rule table; `tomb` is the top-of-memory value the clamp compares with, `CL = min(TOMB, RAM_SIZE)`
(R120, R125, R132). -/
def resolveOver {RF : Type} (rules : List (DecodeRule RF)) (tomb : RF → Nat) (cfg : Config) (rf : RF) : List Region :=
  (sortPieces ((paintRules cfg rf rules).filterMap (clampPiece (min (tomb rf) cfg.ramSize)))).filterMap Piece.entry

/-- `resolve(RF)` of EXEMPLAR_NB (R120, R131). -/
def resolve (cfg : Config) (rf : RegFile) : List Region := resolveOver exemplarRules RegFile.tomb cfg rf

/-- The sequence a resolver run sends to the Region Installer: UNINSTALL_ALL, then one INSTALL per entry in list order
(R129). -/
def installSequence (ri : List Region) : List Cmd :=
  Command.uninstallAll.pack :: ri.map fun r => (Command.install r).pack

/-! ## The tables of a construction (R5, R9) -/

/-- SCHEMA and RULES, the two tables the block is constructed from; they are parameters of the construction, and every
operation that depends on one takes it as an argument (R5, R40; log 2). With the rules goes the top-of-memory value they
configure (R125). -/
structure Tables where
  schema : Schema
  rules : List (DecodeRule schema.Values)
  tomb : schema.Values → Nat

/-- EXEMPLAR_NB, the default of both tables and the configuration a model takes (R5, R9). -/
abbrev exemplarNb : Tables where
  schema := exemplarSchema
  rules := exemplarRules
  tomb := RegFile.tomb

/-- `resolve(RF)` of a core built from the tables (R120). -/
def Tables.resolve (tables : Tables) (cfg : Config) (rf : tables.schema.Values) : List Region :=
  resolveOver tables.rules tables.tomb cfg rf

/-! ## The arbiter's answer for one address (R124, R141) -/

/-- Whether an entry covers an address. -/
def Region.covers (r : Region) (a : Word) : Bool := decide (r.start ≤ a) && decide (a ≤ r.last)

/-- The entry of the installation that covers an address, none where no entry does (R141). -/
def regionAt (ri : List Region) (a : Word) : Option Region := ri.find? fun r => r.covers a

/-- The offset an entry gives an address: `backing + (a - start)` (R55). -/
def Region.offset (r : Region) (a : Word) : Word := r.backing + (a - r.start)

/-- The answer of a LOOKUP in an installation (R141). -/
def lookupResponse (ri : List Region) (dir : Dir) (a : Word) : Response :=
  match regionAt ri a with
  | none => { route := .fallthrough, mode := .hidden, val := 0 }
  | some r =>
    { route := r.mode.route dir
      mode := r.mode
      val := if (r.mode.route dir).carriesOffset then r.offset a else 0 }

end Sys2Proof.Machine
end

