-- ==== Sys2Proof/Machine/State.lean ====
section
/-!
DEFINITION. The state of the core: RF, CP, RI and the output histories (10_state.md R10, R30, R33, R35), the parameters
every step is given (00_scope.md R9, 10_state.md R40), and the inputs of its interfaces (30_encoding.md R80).
-/
namespace Sys2Proof.Machine

/-- The Configuration Port State (R30). -/
structure ConfigPort where
  /-- `locked`: true is the state LOCKED, false UNLOCKED. -/
  locked : Bool
  /-- `selectedDeviceIndex`. -/
  sel : BitVec 4
  /-- `currentRegisterIndex`. -/
  idx : Byte
  /-- `registers[d][i]`, cell `[d][i]` at address `cellAddress d i`. -/
  bank : Memory
deriving DecidableEq, Repr

/-- A transaction on the request interface, with what the host presents on the blob port with it (R80; log 3). -/
structure Request where
  txn : Txn
  blob : Blob
deriving DecidableEq, Repr

/-- The state of the core, as plain data, over the type of the register values of its schema; `State` alone is the state
of the core built from EXEMPLAR_NB (R5; log 2). -/
structure State (RF : Type := RegFile) where
  /-- The parameters of R9; no step changes them (R40; log 1). -/
  cfg : Config
  /-- RF, the Register File (R11 to R27). -/
  rf : RF
  /-- CP, the Configuration Port State (R30). -/
  cp : ConfigPort
  /-- RI, the Region Installation (R33). -/
  ri : List Region
  /-- The Region Installer stream, oldest command first (R35, R85). -/
  installer : List Cmd
  /-- The response stream, oldest response first (R35, R84). -/
  responses : List Rsp
  /-- The blobs SNAPSHOT has put on the blob port, oldest first (R80 item 4, R181). -/
  blobsOut : List Blob
  /-- The requests not yet taken, in order of arrival (R6, R65; log 3). -/
  requests : List Request
  /-- What stands on the blob port, the operand of RESTORE (R80 item 4, R182; log 4). -/
  blobPort : Blob
deriving DecidableEq, Repr

/-- Reasons a machine stops with a fault: NONE. "No transaction raises an exception, returns an error code, or can
fail" (R190), so nothing raises one and the type has no constructor; this is neither safe nor unsafe (log 11). -/
inductive Fault : Type
deriving DecidableEq, Repr

/-- Reasons a request gets no meaning. The first is the model's own; the others are exactly those of R203. -/
inductive Refusal where
  /-- Raised by exec's arm of an instruction without a meaning; no arm of this model raises it. Safe. -/
  | notModelled (mnemonic : String)
  /-- Raised by step for a word with a reserved OP or a nonzero Z (R86). Safe: nothing is claimed after it. -/
  | reservedWord (why : DecodeError)
  /-- Raised by CFGRD and CFGWR for an id outside the schema (R87). Safe: nothing is claimed after it. -/
  | unknownRegister (id : Byte)
  /-- Raised by RESTORE for a blob that has not the schema's length, 4120 bytes in EXEMPLAR_NB (R182). Safe: nothing is claimed after it. -/
  | wrongBlobLength (length : Nat)
  /-- Raised by step when the parameters fail their constraints, so that the rule table is not valid (R139, R203;
  log 5). Safe: nothing is claimed after it. -/
  | invalidParameters
deriving DecidableEq, Repr

/-- The Region Installation after reset at the default parameters (R210). -/
def resetRegions : List Region :=
  [{ start := 0x00000000, last := 0x0009FFFF, mode := .ram, backing := 0x00000000 },
   { start := 0x00100000, last := 0x01FFFFFF, mode := .ram, backing := 0x00100000 }]

/-- The machine right after reset at the default parameters, in full (R210, R211): the installer stream holds exactly
the one reset sequence. No request has arrived, and the blob port stands at 4120 zero bytes (log 3, log 4). -/
def State.reset : State where
  cfg := Config.default
  rf :=
    { apbase := 0x00000000
      lockctl := 0x00
      tom := 0x0020
      pam1 := 0x00
      pam2 := 0x00
      pam3 := 0x00
      pam4 := 0x00
      pam5 := 0x00
      pam6 := 0x00
      pam7 := 0x00
      smramc := 0x00
      esmramc := 0x00
      apsize := 0x00
      scratch := 0x00000000 }
  cp := { locked := true, sel := 0, idx := 0x00, bank := [] }
  ri := resetRegions
  installer := [0x0000000000000000000000000, 0xB000000000009FFFF00000000, 0xB0010000001FFFFFF00100000]
  responses := []
  blobsOut := []
  requests := []
  blobPort := List.replicate blobLength 0x00

end Sys2Proof.Machine
end

