-- ==== Sys2Proof/Machine/Ops.lean ====
section
/-!
DEFINITION. The named operations on the state that the meanings share: answering, the resolver run, the accesses to the
configuration-port bank, the snapshot blob, the acceptance of a request. There is no "taking an exception" and no
return from one: the core has neither (60_exceptions.md R190, R197, R198; log 11).
-/
namespace Sys2Proof.Machine

/-! ## Output (R35, R84, R181) -/

/-- `respond`: put a response on the response interface (R84). -/
def State.respond {RF : Type} (s : State RF) (r : Response) : State RF := { s with responses := s.responses ++ [r.pack] }

/-- `respond v` of an operation other than LOOKUP. -/
def State.respondVal {RF : Type} (s : State RF) (v : Word) : State RF := s.respond (plainResponse v)

/-- Put a blob on the blob port (R181). -/
def State.putBlob {RF : Type} (s : State RF) (b : Blob) : State RF := { s with blobsOut := s.blobsOut ++ [b] }

/-! ## State changes -/

/-- The state with another Register File. -/
def State.withRf {RF : Type} (s : State RF) (rf : RF) : State RF := { s with rf := rf }

/-- The state with another Configuration Port State. -/
def State.withCp {RF : Type} (s : State RF) (cp : ConfigPort) : State RF := { s with cp := cp }

/-- `RESOLVE()`: compute the Region Installation anew and send it to the Region Installer (R120, R129). -/
def Tables.runResolver (tables : Tables) (s : State tables.schema.Values) : State tables.schema.Values :=
  { s with
    ri := tables.resolve s.cfg s.rf
    installer := s.installer ++ installSequence (tables.resolve s.cfg s.rf) }

/-- A store to a STORAGE register that was not discarded: the resolver runs after it if and only if the register is
decode-relevant (R102, R105). -/
def Tables.commitReg (tables : Tables) (s : State tables.schema.Values) (r : tables.schema.StorageId)
    (v : BitVec (tables.schema.width r)) : State tables.schema.Values :=
  if tables.schema.decodeRelevant r then tables.runResolver (s.withRf (tables.schema.set s.rf r v))
  else s.withRf (tables.schema.set s.rf r v)

/-- The resolver run of the core built from EXEMPLAR_NB. -/
def State.runResolver (s : State) : State := exemplarNb.runResolver s

/-- The store to a register of the core built from EXEMPLAR_NB. -/
def State.commitReg (s : State) (r : StorageReg) (v : BitVec r.width) : State := exemplarNb.commitReg s r v

/-! ## The configuration port (R163 to R166) -/

/-- The device a data-port access reaches (R163). -/
def ConfigPort.dev (cp : ConfigPort) : BitVec 4 := if cp.idx ≤ sharedMax then 0 else cp.sel

/-- The bank address a data-port access reaches (R54, R163). -/
def ConfigPort.cell (cp : ConfigPort) : Nat := cellAddress cp.dev cp.idx

/-- The byte of the cell a data-port access reaches (R163). -/
def ConfigPort.cellValue (cp : ConfigPort) : Byte := cp.bank.read cp.cell

/-- A key write: it changes `locked`, and stores the key byte in `idx` only if KEY_LATCHES_INDEX (R166). -/
def ConfigPort.key (cfg : Config) (cp : ConfigPort) (locked : Bool) (v : Byte) : ConfigPort :=
  { cp with locked := locked, idx := if cfg.keyLatchesIndex then v else cp.idx }

/-- An index-port write: rows T1, T2, T6, T7 of R165. -/
def ConfigPort.writeIndex (cfg : Config) (cp : ConfigPort) (v : Byte) : ConfigPort :=
  if cp.locked then
    if v = cfg.unlockByte then cp.key cfg false v else cp
  else
    if v = cfg.lockByte then cp.key cfg true v else { cp with idx := v }

/-- A data-port write: rows T3, T8, T9, T10 of R165. A data write at DEVSEL_INDEX in the shared sub-range also selects
the device from `v[3:0]` (R164). -/
def ConfigPort.writeData (cfg : Config) (cp : ConfigPort) (v : Byte) : ConfigPort :=
  if cp.locked then cp
  else
    { cp with
      bank := cp.bank.write cp.cell v
      sel := if cp.idx ≤ sharedMax ∧ cp.idx = cfg.devselIndex then v.extractLsb' 0 4 else cp.sel }

/-- A write to a configuration port (R161, R165). -/
def ConfigPort.write (cfg : Config) (cp : ConfigPort) (p : Port) (v : Byte) : ConfigPort :=
  match p with
  | .index => cp.writeIndex cfg v
  | .data => cp.writeData cfg v

/-- What a read of a configuration port answers: rows T4, T5, T11, T12 of R165 (R162). -/
def ConfigPort.readPort (cp : ConfigPort) (p : Port) : Byte :=
  match p with
  | .index => cp.idx
  | .data => if cp.locked then 0x00 else cp.cellValue

/-- The Configuration Port State after reset (R37). -/
def resetConfigPort (cfg : Config) : ConfigPort := { locked := true, sel := 0, idx := 0x00, bank := cfg.bankReset }

/-! ## The snapshot blob (R183) -/

/-- The `n` low bytes of a value, least significant byte first (R56, R183). -/
def littleEndian {w : Nat} (v : BitVec w) : Nat → List Byte
  | 0 => []
  | n + 1 => v.setWidth 8 :: littleEndian (v >>> 8) n

/-- The value whose bytes, least significant first, are `bs` (R56, R183). -/
def ofLittleEndian : List Byte → Nat
  | [] => 0
  | b :: bs => b.toNat + 256 * ofLittleEndian bs

/-- The blob of the persistent state RF and CP: the registers in ascending id order, then the fields of the port, then
the bank (R39, R183). -/
def Schema.snapshotBlob (schema : Schema) (rf : schema.Values) (cp : ConfigPort) : Blob :=
  schema.storageIds.flatMap (fun r => littleEndian (schema.get rf r) (schema.blobSize r))
    ++ [if cp.locked then 0x01 else 0x00, cp.sel.setWidth 8, cp.idx]
    ++ cp.bank.bytesFrom 0 bankSize

/-- The length of the blob: 4120 in EXEMPLAR_NB (R183). -/
def Schema.blobLength (schema : Schema) : Nat := schema.blobRegBytes + 3 + bankSize

/-- Byte `o` of a blob. -/
def blobByte (b : Blob) (o : Nat) : Byte := b.getD o 0x00

/-- The little-endian value at a register's blob offset (R182). -/
def Schema.blobReg (schema : Schema) (b : Blob) (r : schema.StorageId) : BitVec (schema.width r) :=
  BitVec.ofNat (schema.width r) (ofLittleEndian ((b.drop (schema.blobOffset r)).take (schema.blobSize r)))

/-- The Register File a RESTORE loads: reserved bits keep their reset value (R182). -/
def Schema.restoredValues (schema : Schema) (cfg : Config) (b : Blob) : schema.Values :=
  schema.ofValues fun r => sanitise (schema.blobReg b r) (schema.writeMask r) (schema.resetValue cfg r)

/-- The Configuration Port State a RESTORE loads, from the bytes at `base` on (R182, R183). -/
def restoredPort (b : Blob) (base : Nat) : ConfigPort where
  locked := decide (blobByte b base ≠ 0x00)
  sel := (blobByte b (base + 1)).extractLsb' 0 4
  idx := blobByte b (base + 2)
  bank := Memory.ofBytesAt 0 (b.drop (base + 3))

/-- Offset of `CP.locked` in the blob of EXEMPLAR_NB (R183). -/
def blobLocked : Nat := 0x0015

/-- Offset of `CP.bank[0][0]` in the blob of EXEMPLAR_NB (R183). -/
def blobBank : Nat := 0x0018

/-- The blob of EXEMPLAR_NB. -/
def snapshotBlob (rf : RegFile) (cp : ConfigPort) : Blob := exemplarSchema.snapshotBlob rf cp

/-- The value of a register in a blob of EXEMPLAR_NB. -/
def blobReg (b : Blob) (r : StorageReg) : BitVec r.width := exemplarSchema.blobReg b r

/-- The Register File a RESTORE loads on EXEMPLAR_NB. -/
def restoredRf (cfg : Config) (b : Blob) : RegFile := exemplarSchema.restoredValues cfg b

/-- The Configuration Port State a RESTORE loads on EXEMPLAR_NB. -/
def restoredCp (b : Blob) : ConfigPort := restoredPort b blobLocked

/-! ## Accepting a request (R6, R80) -/

/-- The constraints on the parameters (00_scope.md R9, 92_eei_decisions.md, the last section): with them EXEMPLAR_NB is
a valid table (R139), and the reset values satisfy R12. ADDR_WIDTH needs no check: its type has its one value. -/
def validConfig (cfg : Config) : Bool :=
  decide (cfg.devselIndex ≤ sharedMax)
    && decide (cfg.tomReset &&& 0xF000 = 0)
    && decide (cfg.ramSize ≤ 2 ^ 32)
    && decide (cfg.aliasBacking.toNat + 0x1FFFF ≤ 0xFFFFFFFF)
    && Memory.wf cfg.bankReset

/-- The word on the request interface: the oldest request not yet taken, or the idle value, the all-zero word, when
there is none (R100; log 3). -/
def State.nextTxn {RF : Type} (s : State RF) : Txn :=
  match s.requests with
  | [] => 0
  | r :: _ => r.txn

/-- The state after a request has been accepted: it is taken off the queue, and what the host presents with it stands
on the blob port. -/
def State.accepted {RF : Type} (s : State RF) : State RF :=
  match s.requests with
  | [] => s
  | r :: rs => { s with requests := rs, blobPort := r.blob }

/-- The state with one more request, presented before all that wait; the blob port stands as it stood. -/
def State.present {RF : Type} (s : State RF) (w : Txn) : State RF := { s with requests := { txn := w, blob := s.blobPort } :: s.requests }

end Sys2Proof.Machine
end

