-- ==== Sys2Proof/Machine/HostAccess.lean ====
section
/-!
DEFINITION. The host operations: RESET, SNAPSHOT, RESTORE (43_host_ops.md R180 to R183). They are written once over any
tables; the meanings are that at EXEMPLAR_NB (log 2).
-/
namespace Sys2Proof.Machine

/-- RESET: every register and the whole port take their reset values, whatever is locked; then the resolver runs
(R180). -/
def Tables.reset (tables : Tables) (s : State tables.schema.Values) :
    Host.Outcome (State tables.schema.Values) Fault Refusal :=
  .next (tables.runResolver ((s.withRf (tables.schema.resetValues s.cfg)).withCp (resetConfigPort s.cfg)))

/-- RESET on EXEMPLAR_NB. -/
def execReset (s : State) : Host.Outcome State Fault Refusal := exemplarNb.reset s

/-- SNAPSHOT: the blob of RF and CP to the blob port, and the answer 0 (R181). -/
def Tables.snapshot (tables : Tables) (s : State tables.schema.Values) :
    Host.Outcome (State tables.schema.Values) Fault Refusal :=
  .next ((s.putBlob (tables.schema.snapshotBlob s.rf s.cp)).respondVal 0)

/-- SNAPSHOT on EXEMPLAR_NB. -/
def execSnapshot (s : State) : Host.Outcome State Fault Refusal := exemplarNb.snapshot s

/-- RESTORE: load RF and CP from the blob, whatever is locked; then the resolver runs (R182). -/
def Tables.restore (tables : Tables) (s : State tables.schema.Values) :
    Host.Outcome (State tables.schema.Values) Fault Refusal :=
  if s.blobPort.length = tables.schema.blobLength then
    .next (tables.runResolver
      ((s.withRf (tables.schema.restoredValues s.cfg s.blobPort)).withCp
        (restoredPort s.blobPort tables.schema.blobRegBytes)))
  else .refused (.wrongBlobLength s.blobPort.length)

/-- RESTORE on EXEMPLAR_NB. -/
def execRestore (s : State) : Host.Outcome State Fault Refusal := exemplarNb.restore s

end Sys2Proof.Machine
end

