-- ==== Sys2Proof/Machine/Lookup.lean ====
section
/-!
DEFINITION. LOOKUP (41_resolver.md R141).
-/
namespace Sys2Proof.Machine

/-- LOOKUP: answer the route, the mode and the offset of one address; it reads RI only and changes no state (R141). -/
def execLookup {RF : Type} (dir : Dir) (addr : Word) (s : State RF) : Host.Outcome (State RF) Fault Refusal :=
  .next (s.respond (lookupResponse s.ri dir addr))

end Sys2Proof.Machine
end

