-- ==== Sys2Proof/Machine/PortAccess.lean ====
section
/-!
DEFINITION. The Indexed Configuration Port Protocol: IORD, IOWR (42_config_port.md R160 to R166).
-/
namespace Sys2Proof.Machine

/-- IORD: answer the byte of a port, zero-extended (R162). -/
def execIord {RF : Type} (p : Port) (s : State RF) : Host.Outcome (State RF) Fault Refusal :=
  .next (s.respondVal ((s.cp.readPort p).setWidth 32))

/-- IOWR: the state machine of R165 (R161). -/
def execIowr {RF : Type} (p : Port) (v : Byte) (s : State RF) : Host.Outcome (State RF) Fault Refusal :=
  .next (s.withCp (s.cp.write s.cfg p v))

end Sys2Proof.Machine
end

