-- ==== Sys2Proof/Machine/RegisterAccess.lean ====
section
/-!
DEFINITION. Register File access: NOP, CFGRD, CFGWR (40_register_access.md R100 to R106). What depends on a table is
written once over any tables; the meanings are that at EXEMPLAR_NB (log 2).
-/
namespace Sys2Proof.Machine

/-- NOP: nothing (R100). -/
def execNop {RF : Type} (s : State RF) : Host.Outcome (State RF) Fault Refusal := .next s

/-- CFGRD: answer the register, zero-extended; a read changes no register (R101). -/
def Tables.cfgrd (tables : Tables) (id : Byte) (s : State tables.schema.Values) :
    Host.Outcome (State tables.schema.Values) Fault Refusal :=
  match tables.schema.regOfId id with
  | none => .refused (.unknownRegister id)
  | some r => .next (s.respondVal (tables.schema.readReg s.cfg s.rf r))

/-- CFGRD on EXEMPLAR_NB. -/
def execCfgrd (id : Byte) (s : State) : Host.Outcome State Fault Refusal := exemplarNb.cfgrd id s

/-- CFGWR: schema membership, CONST, the lock predicate on the values before the write, the merge, the resolver run, in
this order (R102, R103, R196). -/
def Tables.cfgwr (tables : Tables) (id : Byte) (data mask : Word) (s : State tables.schema.Values) :
    Host.Outcome (State tables.schema.Values) Fault Refusal :=
  match tables.schema.regOfId id with
  | none => .refused (.unknownRegister id)
  | some (.const _) => .next s
  | some (.storage r) =>
    if tables.schema.locked s.rf r then .next s
    else .next (tables.commitReg s r (tables.schema.merged s.rf r data mask))

/-- CFGWR on EXEMPLAR_NB. -/
def execCfgwr (id : Byte) (data mask : Word) (s : State) : Host.Outcome State Fault Refusal :=
  exemplarNb.cfgwr id data mask s

end Sys2Proof.Machine
end

