-- ==== Sys2Proof/Machine/Dispatch.lean ====
section
/-!
DEFINITION. The dispatch of a transaction to its meaning, one arm per row of the operation map (30_encoding.md R82).
-/
namespace Sys2Proof.Machine

def exec (i : Instr) (s : State) : Host.Outcome State Fault Refusal :=
  match i with
  | .nop => Sys2Proof.Machine.execNop s
  | .cfgrd id => Sys2Proof.Machine.execCfgrd id s
  | .cfgwr id data mask => Sys2Proof.Machine.execCfgwr id data mask s
  | .iord p => Sys2Proof.Machine.execIord p s
  | .iowr p v => Sys2Proof.Machine.execIowr p v s
  | .lookup dir addr => Sys2Proof.Machine.execLookup dir addr s
  | .reset => Sys2Proof.Machine.execReset s
  | .snapshot => Sys2Proof.Machine.execSnapshot s
  | .restore => Sys2Proof.Machine.execRestore s

end Sys2Proof.Machine
end

