-- ==== Sys2Proof/Machine/Step.lean ====
section
/-!
DEFINITION. One step: one transaction taken from the request interface and carried out completely (00_scope.md R6).
-/
namespace Sys2Proof.Machine

/-- One step (R6). A machine whose parameters fail their constraints is outside the contract (R203); a reserved word is
refused (R86); every other word is one transaction. -/
def step (s : State) : Host.Outcome State Fault Refusal :=
  if validConfig s.cfg then
    match decode s.nextTxn with
    | .error e => .refused (.reservedWord e)
    | .ok i => exec i s.accepted
  else .refused .invalidParameters

/-- The state whose next request is the word whose low `nbits` bits are those of `w`. -/
def State.withFetchWord (s : State) (nbits w : Nat) : State := s.present (txnOfBits nbits w)

end Sys2Proof.Machine
end

