-- ==== Sys2Proof/Machine/Construction.lean ====
section
/-!
DEFINITION. The core constructed from any two tables: "construct the engine with a different rule table" (00_scope.md R5,
R9). `exec` and `step` are this machine at EXEMPLAR_NB, the configuration R5 has a model take
(Laws/Construction.lean). A table is taken to be valid; R139 makes that a premise.
-/
namespace Sys2Proof.Machine

/-- One transaction on a core built from `tables`. -/
def Tables.exec (tables : Tables) (i : Instr) (s : State tables.schema.Values) :
    Host.Outcome (State tables.schema.Values) Fault Refusal :=
  match i with
  | .nop => execNop s
  | .cfgrd id => tables.cfgrd id s
  | .cfgwr id data mask => tables.cfgwr id data mask s
  | .iord p => execIord p s
  | .iowr p v => execIowr p v s
  | .lookup dir addr => execLookup dir addr s
  | .reset => tables.reset s
  | .snapshot => tables.snapshot s
  | .restore => tables.restore s

/-- One step of a core built from `tables`; the constraints on the other parameters are those of `step`. -/
def Tables.step (tables : Tables) (s : State tables.schema.Values) :
    Host.Outcome (State tables.schema.Values) Fault Refusal :=
  if validConfig s.cfg then
    match decode s.nextTxn with
    | .error e => .refused (.reservedWord e)
    | .ok i => tables.exec i s.accepted
  else .refused .invalidParameters

end Sys2Proof.Machine
end

