-- ==== Sys2Proof/Safety.lean ====
section
/-!
DEFINITION. What counts as a good state and a good run: the invariants the spec states of the core.
-/
namespace Sys2Proof.Machine

/-- R12: the bits outside a register's write-mask hold their reset value. -/
def RegFile.reservedKept (cfg : Config) (rf : RegFile) : Prop :=
  ∀ r : StorageReg, rf.get r &&& ~~~r.writeMask = r.resetValue cfg &&& ~~~r.writeMask

/-- The invariants of a state: valid parameters (R139), R12, the canonical form of the bank, and R34. -/
structure State.Inv (s : State) : Prop where
  paramsValid : validConfig s.cfg = true
  reservedKept : s.rf.reservedKept s.cfg
  bankWf : s.cp.bank.wf = true
  derived : s.ri = resolve s.cfg s.rf

/-- R33: an entry is a range that is not HIDDEN. -/
def Region.proper (r : Region) : Prop := r.start ≤ r.last ∧ r.mode ≠ .hidden

/-- R33: proper entries, sorted by start, no two overlapping. -/
def regionsOrdered (ri : List Region) : Prop :=
  (∀ r ∈ ri, r.proper) ∧ ri.Pairwise fun p q => p.last < q.start

/-- R26's table by bit number, said beside the model's own predicate `RegFile.locked`: the bit that guards the register
is 1. -/
def RegFile.lockBitSet (rf : RegFile) : StorageReg → Bool
  | .pam1 => rf.lockctl.getLsbD 0
  | .pam2 => rf.lockctl.getLsbD 0
  | .pam3 => rf.lockctl.getLsbD 0
  | .pam4 => rf.lockctl.getLsbD 0
  | .pam5 => rf.lockctl.getLsbD 0
  | .pam6 => rf.lockctl.getLsbD 0
  | .pam7 => rf.lockctl.getLsbD 0
  | .tom => rf.lockctl.getLsbD 1
  | .apbase => rf.lockctl.getLsbD 2
  | .apsize => rf.lockctl.getLsbD 2
  | .lockctl => rf.lockctl.getLsbD 7
  | .smramc => rf.smramc.getLsbD 4
  | .esmramc => rf.smramc.getLsbD 4
  | .scratch => false

/-- The enabled aperture reaches an address: AP_EN is 1 and the address lies in the range of R138, whose size is 4 MiB
shifted by the size code, codes 7 to 15 acting as 6 (R132). -/
def RegFile.apertureReaches (rf : RegFile) (a : Word) : Prop :=
  rf.apsize.getLsbD 7 = true ∧ rf.apbase.toNat ≤ a.toNat ∧
    a.toNat < rf.apbase.toNat + 0x00400000 * 2 ^ min (rf.apsize.toNat % 16) 6

/-- What R11 and R183 ask of a schema: widths of 8, 16 or 32 bits, one id for each register, stored values that are one
value for each STORAGE register, and a blob that holds every STORAGE register, in ascending id order, one after
another. As a premise it is the model's, DEDUCED (log 2). -/
structure Schema.Lawful (schema : Schema) : Prop where
  widths : ∀ r, schema.width r = 8 ∨ schema.width r = 16 ∨ schema.width r = 32
  constWidths : ∀ c, schema.constWidth c = 8 ∨ schema.constWidth c = 16 ∨ schema.constWidth c = 32
  hasId : ∀ r : Reg schema.ConstId schema.StorageId, ∃ i, schema.regOfId i = some r
  idsDistinct : ∀ (i j : Byte) (r : Reg schema.ConstId schema.StorageId),
    schema.regOfId i = some r → schema.regOfId j = some r → i = j
  get_set : ∀ (rf : schema.Values) (r : schema.StorageId) (v : BitVec (schema.width r)),
    schema.get (schema.set rf r v) r = v
  get_set_ne : ∀ (rf : schema.Values) (r q : schema.StorageId) (v : BitVec (schema.width r)), q ≠ r →
    schema.get (schema.set rf r v) q = schema.get rf q
  get_ofValues : ∀ (f : (r : schema.StorageId) → BitVec (schema.width r)) (r : schema.StorageId),
    schema.get (schema.ofValues f) r = f r
  ext : ∀ rf rf' : schema.Values, (∀ r, schema.get rf r = schema.get rf' r) → rf = rf'
  allStored : ∀ r, r ∈ schema.storageIds
  ascending : schema.storageIds.Pairwise fun r q => ∀ i j : Byte,
    schema.regOfId i = some (.storage r) → schema.regOfId j = some (.storage q) → i < j
  offsets : ∀ (before after : List schema.StorageId) (r : schema.StorageId),
    schema.storageIds = before ++ r :: after → schema.blobOffset r = (before.map schema.blobSize).sum

/-- R139: a table is valid when (a) its order is total, (b) every contributed range has start ≤ end, (c) no backing
offset passes 0xFFFFFFFF, (d) no rule, and neither the top-of-memory value, reads a register that is not marked
decode-relevant. The clause on the top-of-memory value is the model's, DEDUCED (log 2). -/
structure Tables.Valid (tables : Tables) : Prop where
  orderTotal : tables.rules.Pairwise fun j k => j.index < k.index
  inRange : ∀ (cfg : Config) (rf : tables.schema.Values) (k : DecodeRule tables.schema.Values) (c : Contribution),
    validConfig cfg = true → k ∈ tables.rules → k.eval cfg rf = some c →
      c.start ≤ c.last ∧ c.backing + (c.last - c.start) ≤ 0xFFFFFFFF
  readsRelevant : ∀ (cfg : Config) (rf rf' : tables.schema.Values),
    (∀ r, tables.schema.decodeRelevant r = true → tables.schema.get rf r = tables.schema.get rf' r) →
      tables.tomb rf = tables.tomb rf' ∧ ∀ k ∈ tables.rules, k.eval cfg rf = k.eval cfg rf'

/-- The events on which the resolver runs, and no others: a CFGWR to a decode-relevant register that is not discarded,
RESET, RESTORE (R105, R121, R122). -/
def resolverEvent (i : Instr) (s : State) : Prop :=
  match i with
  | .cfgwr id _ _ => ∃ r, regOfId id = some (.storage r) ∧ r.decodeRelevant = true ∧ s.rf.lockBitSet r = false
  | .reset => True
  | .restore => True
  | .nop => False
  | .cfgrd _ => False
  | .iord _ => False
  | .iowr _ _ => False
  | .lookup _ _ => False
  | .snapshot => False

/-- Whether a transaction answers on the response interface (R82, R84). -/
def responds : Instr → Bool
  | .nop => false
  | .cfgrd _ => true
  | .cfgwr _ _ _ => false
  | .iord _ => true
  | .iowr _ _ => false
  | .lookup _ _ => true
  | .reset => false
  | .snapshot => true
  | .restore => false

/-- What a rule contributes at an address, none where it does not reach it (R130). -/
def contributesAt {RF : Type} (cfg : Config) (rf : RF) (a : Nat) (k : DecodeRule RF) :
    Option (DecodeRule RF × Contribution) :=
  match k.eval cfg rf with
  | none => none
  | some c => if c.start ≤ a ∧ a ≤ c.last then some (k, c) else none

/-- The rule that decides an address, with what it contributed: the highest-index rule whose contributed range contains it,
none where no rule reaches (R124). -/
def decidingOver {RF : Type} (rules : List (DecodeRule RF)) (cfg : Config) (rf : RF) (a : Word) :
    Option (DecodeRule RF × Contribution) :=
  (rules.filterMap (contributesAt cfg rf a.toNat)).getLast?

/-- Some entry of the list covers both addresses. -/
def sameEntry (ri : List Region) (a b : Word) : Prop :=
  ∃ e ∈ ri, e.start ≤ a ∧ a ≤ e.last ∧ e.start ≤ b ∧ b ≤ e.last

/-- R128: of two neighbouring mapped addresses, one entry covers both exactly when one rule, by its index, decides both. So
pieces of different rules are never merged, and a piece is never split. -/
def entriesArePieces {RF : Type} (rules : List (DecodeRule RF)) (cfg : Config) (rf : RF) (ri : List Region) : Prop :=
  ∀ a b : Word, a.toNat + 1 = b.toNat → sameEntry ri a a → sameEntry ri b b →
    (sameEntry ri a b ↔
      (decidingOver rules cfg rf a).map (fun d => d.1.index) = (decidingOver rules cfg rf b).map (fun d => d.1.index))

/-- The arbiter's answer for one address, said without the list of regions: the highest-index rule whose contributed
range contains the address decides; a HIDDEN contribution, and a RAM-backed one of a clamped rule at or above CL, leave
the address unmapped; otherwise the answer is the mode and the offset (R124, R125, R128, R55). -/
def arbiterOver {RF : Type} (rules : List (DecodeRule RF)) (tomb : RF → Nat) (cfg : Config) (rf : RF) (a : Word) :
    Option (Mode × Word) :=
  match decidingOver rules cfg rf a with
  | none => none
  | some (k, c) =>
    if c.mode = .hidden then none
    else if k.clamp && c.mode.ramBacked && decide (min (tomb rf) cfg.ramSize ≤ a.toNat) then none
    else some (c.mode, BitVec.ofNat 32 (c.backing + (a.toNat - c.start)))

/-- The layout of the registers in the blob: each register and the offset of its least significant byte (R183). -/
def blobTable : List (StorageReg × Nat) :=
  [(.apbase, 0x0000), (.lockctl, 0x0004), (.tom, 0x0005), (.pam1, 0x0007), (.pam2, 0x0008), (.pam3, 0x0009),
   (.pam4, 0x000A), (.pam5, 0x000B), (.pam6, 0x000C), (.pam7, 0x000D), (.smramc, 0x000E), (.esmramc, 0x000F),
   (.apsize, 0x0010), (.scratch, 0x0011)]

/-- The arbiter's answer on EXEMPLAR_NB. -/
def arbiterAnswer (cfg : Config) (rf : RegFile) (a : Word) : Option (Mode × Word) :=
  arbiterOver exemplarRules RegFile.tomb cfg rf a

/-- The core answers: the step ends in a next state, not in a refusal. -/
def State.answers (s : State) : Prop := ∃ t, step s = .next t

end Sys2Proof.Machine
end

