-- ==== Sys2Proof/WellFormed.lean ====
section
/-!
DEFINITION. Which transactions are inside the contract of the core built from EXEMPLAR_NB as far as their operands go: a
CFGRD or CFGWR names one of the 16 ids of its schema (30_encoding.md R83, R87). Every other operand value is legal. On
another schema the check is `Machine.Schema.regOfId` (log 2).
-/
namespace Sys2Proof

/-- The sixteen register ids of EXEMPLAR_NB (10_state.md R14). -/
def schemaIds : List Byte :=
  [0x00, 0x08, 0x10, 0x50, 0x52, 0x59, 0x5A, 0x5B, 0x5C, 0x5D, 0x5E, 0x5F, 0x72, 0x73, 0xB4, 0xF0]

/-- The id check of R83 and R87. -/
def Instr.wellFormed : Instr → Bool
  | .cfgrd id => schemaIds.contains id
  | .cfgwr id _ _ => schemaIds.contains id
  | .nop => true
  | .iord _ => true
  | .iowr _ _ => true
  | .lookup _ _ => true
  | .reset => true
  | .snapshot => true
  | .restore => true

end Sys2Proof
end

