-- ==== Sys2Proof/Certificates/Slice0/Obligations.lean ====
section
/-!
DEFINITION. The statements for the provers. They speak of `exec` and `step` of the model; a transaction's next state is
written out as the state before it with the fields that change, so that each also says what stays. Nothing here is
proved.
-/
open Sys2Proof Sys2Proof.Machine

/-! ## The transaction word -/

/-- Decode and encode agree, for every transaction with every operand (R81, R82, R83). -/
def Obligations.DecodeEncodeRoundTrip : Prop :=
  ∀ i : Instr, decode (encode i) = .ok i

/-- A word decodes by its used bits alone: re-encoding gives those bits back, and every word with the same used bits
decodes alike (R82, R83: unused fields are ignored). -/
def Obligations.OnlyUsedBitsDecode : Prop :=
  ∀ (w : Txn) (i : Instr), decode w = .ok i →
    encode i &&& i.usedBits = w &&& i.usedBits ∧
    ∀ w' : Txn, w' &&& i.usedBits = w &&& i.usedBits → decode w' = .ok i

/-- R86: a word is reserved exactly when OP is 0x9 to 0xF or Z is not 0, and step refuses exactly the reserved words
with `reservedWord`. -/
def Obligations.ReservedWordsRefused : Prop :=
  ∀ s : State, validConfig s.cfg = true →
    ((∃ e, step s = .refused (.reservedWord e)) ↔
      9 ≤ (s.nextTxn.extractLsb' 76 4).toNat ∨ s.nextTxn.extractLsb' 72 4 ≠ 0)

/-- Words written out from R81 decode to the transactions they stand for (95_test_vectors.md E1 to E6 and the examples
of R161, R162, R181, R182). -/
def Obligations.SpecWordsDecode : Prop :=
  decode 0x2059000000FF00000003 = .ok (.cfgwr 0x59 0x00000003 0x000000FF) ∧
  decode 0x10520000000000000000 = .ok (.cfgrd 0x52) ∧
  decode 0x500100000000FEDA0010 = .ok (.lookup .write 0xFEDA0010) ∧
  decode 0x4001000000000000005A = .ok (.iowr .data 0x5A) ∧
  decode 0x30000000000000000000 = .ok (.iord .index) ∧
  decode 0x00FFFFFFFFFFFFFFFFFF = .ok .nop ∧
  decode 0x60123456789ABCDEF012 = .ok .reset ∧
  decode 0x70000000000000000000 = .ok .snapshot ∧
  decode 0x80000000000000000000 = .ok .restore

/-- A step runs the decoded transaction: the oldest request is taken off, what comes with it stands on the blob port,
and exec runs. With no request waiting the idle word is a NOP. The queue and the idle step are the model's choice
(log 3). -/
def Obligations.StepRunsDecodedTransaction : Prop :=
  (∀ (s : State) (r : Request) (rs : List Request) (i : Instr),
    validConfig s.cfg = true → s.requests = r :: rs → decode r.txn = .ok i →
      step s = exec i { s with requests := rs, blobPort := r.blob }) ∧
  (∀ s : State, validConfig s.cfg = true → s.requests = [] → step s = .next s)

/-- The outcome is a next state exactly for the requests inside the contract: valid parameters, a word that is not
reserved, an id of the schema, a blob of 4120 bytes (R190, R203). That unsuitable parameters are refused by step is the
model's choice (log 5). -/
def Obligations.AnswersExactlyInsideContract : Prop :=
  ∀ s : State, s.answers ↔
    validConfig s.cfg = true ∧
    ∃ i, decode s.nextTxn = .ok i ∧ i.wellFormed = true ∧ (i = .restore → s.accepted.blobPort.length = 4120)

/-! ## Register File access -/

/-- R100: a word with OP 0 and Z 0 is NOP whatever A, M and D are, the all-zero word among them; NOP reads nothing,
writes nothing, answers nothing and emits no command. -/
def Obligations.NopChangesNothing : Prop :=
  (∀ w : Txn, w.extractLsb' 72 8 = 0 → decode w = .ok .nop) ∧
  ∀ s : State, exec .nop s = .next s

/-- R87: an id that is none of the sixteen of R14 is refused, by CFGRD and by CFGWR. -/
def Obligations.IdsOutsideSchemaRefused : Prop :=
  ∀ (s : State) (id : Byte) (data mask : Word),
    id ∉ ([0x00, 0x08, 0x10, 0x50, 0x52, 0x59, 0x5A, 0x5B, 0x5C, 0x5D, 0x5E, 0x5F, 0x72, 0x73, 0xB4, 0xF0] : List Byte) →
      exec (.cfgrd id) s = .refused (.unknownRegister id) ∧
      exec (.cfgwr id data mask) s = .refused (.unknownRegister id)

/-- R14: the table of the registers. Of the STORAGE registers: id, width, write-mask, reset value at the default
parameters, whether decode-relevant, and the lock predicate, by bit number, on every Register File. Of the CONST
registers: id, width, and the constant a read answers. Every id of the table names its register and no other id names
one. -/
def Obligations.SchemaMatchesTable : Prop :=
  storageRegs.map (fun r =>
      (r.id, r.width, r.writeMask.toNat, (r.resetValue Config.default).toNat, r.decodeRelevant)) =
    [(0x10, 32, 0xFFC00000, 0x00000000, true), (0x50, 8, 0x87, 0x00, false), (0x52, 16, 0x0FFF, 0x0020, true),
     (0x59, 8, 0x33, 0x00, true), (0x5A, 8, 0x33, 0x00, true), (0x5B, 8, 0x33, 0x00, true), (0x5C, 8, 0x33, 0x00, true),
     (0x5D, 8, 0x33, 0x00, true), (0x5E, 8, 0x33, 0x00, true), (0x5F, 8, 0x33, 0x00, true),
     (0x72, 8, 0x58, 0x00, true), (0x73, 8, 0x27, 0x00, true), (0xB4, 8, 0x8F, 0x00, true),
     (0xF0, 32, 0xFFFFFFFF, 0x00000000, false)] ∧
  (∀ r : StorageReg, r ∈ storageRegs) ∧
  (∀ (rf : RegFile) (r : StorageReg),
    rf.locked r =
      match r with
      | .apbase | .apsize => rf.lockctl.getLsbD 2
      | .lockctl => rf.lockctl.getLsbD 7
      | .tom => rf.lockctl.getLsbD 1
      | .pam1 | .pam2 | .pam3 | .pam4 | .pam5 | .pam6 | .pam7 => rf.lockctl.getLsbD 0
      | .smramc | .esmramc => rf.smramc.getLsbD 4
      | .scratch => false) ∧
  (∀ cfg : Config, StorageReg.tom.resetValue cfg = cfg.tomReset) ∧
  [ConstReg.devid, .revid].map (fun c => (c.id, c.width)) = [(0x00, 32), (0x08, 8)] ∧
  (∀ cfg : Config, ConstReg.devid.value cfg = cfg.deviceId ∧ ConstReg.revid.value cfg = cfg.revisionId) ∧
  (∀ r : StorageReg, regOfId r.id = some (.storage r)) ∧ (∀ c : ConstReg, regOfId c.id = some (.const c)) ∧
  (∀ id : Byte, id ≠ 0x00 → id ≠ 0x08 → (∀ r : StorageReg, id ≠ r.id) → regOfId id = none) ∧
  (exemplarNb.schema.regOfId = regOfId ∧ (∀ r, exemplarNb.schema.writeMask r = r.writeMask) ∧
    (∀ cfg r, exemplarNb.schema.resetValue cfg r = r.resetValue cfg) ∧
    ∀ r, exemplarNb.schema.decodeRelevant r = r.decodeRelevant)

/-- R101: CFGRD answers the whole register zero-extended to 32 bits, ROUTE and MODE 0, and changes nothing else; a
CONST register answers its constant; no lock matters; an id outside the schema is refused. -/
def Obligations.CfgrdAnswersRegister : Prop :=
  ∀ s : State,
    (∀ id : Byte, id ≠ 0x00 → id ≠ 0x08 → (∀ r : StorageReg, id ≠ r.id) →
      exec (.cfgrd id) s = .refused (.unknownRegister id)) ∧
    (∀ r : StorageReg,
      exec (.cfgrd r.id) s =
        .next { s with responses := s.responses ++ [(0 : BitVec 8) ++ (s.rf.get r).setWidth 32] }) ∧
    exec (.cfgrd 0x00) s = .next { s with responses := s.responses ++ [(0 : BitVec 8) ++ s.cfg.deviceId] } ∧
    exec (.cfgrd 0x08) s = .next { s with responses := s.responses ++ [(0 : BitVec 32) ++ s.cfg.revisionId] }

/-- R102, R104, R105: a CFGWR to a STORAGE register completes while the lock bit that guards it (R26: LOCKCTL bits 0, 1,
2, 7, SMRAMC bit 4; none for SCRATCH) is 0, whatever the other lock bits are; bit by bit the new value is the data
where the access mask and the write-mask both select it, and the old value elsewhere; every other register and the rest
of the state stay; the resolver runs on the new values unless the register is LOCKCTL or SCRATCH. -/
def Obligations.CfgwrStoresSelectedBits : Prop :=
  ∀ (s : State) (r : StorageReg) (data mask : Word),
    (r ∈ [StorageReg.pam1, .pam2, .pam3, .pam4, .pam5, .pam6, .pam7] → s.rf.lockctl.getLsbD 0 = false) →
    (r = .tom → s.rf.lockctl.getLsbD 1 = false) →
    (r = .apbase ∨ r = .apsize → s.rf.lockctl.getLsbD 2 = false) →
    (r = .lockctl → s.rf.lockctl.getLsbD 7 = false) →
    (r = .smramc ∨ r = .esmramc → s.rf.smramc.getLsbD 4 = false) →
    ∃ t, exec (.cfgwr r.id data mask) s = .next t ∧
      (∀ i, i < r.width →
        (t.rf.get r).getLsbD i =
          if mask.getLsbD i && r.writeMask.getLsbD i then data.getLsbD i else (s.rf.get r).getLsbD i) ∧
      (∀ q, q ≠ r → t.rf.get q = s.rf.get q) ∧
      (if r = .lockctl ∨ r = .scratch then t.ri = s.ri ∧ t.installer = s.installer
        else t.ri = resolve s.cfg t.rf ∧ t.installer = s.installer ++ installSequence (resolve s.cfg t.rf)) ∧
      t.cfg = s.cfg ∧ t.cp = s.cp ∧ t.responses = s.responses ∧ t.blobsOut = s.blobsOut ∧
      t.requests = s.requests ∧ t.blobPort = s.blobPort

/-- R192: a write to a locked register, a write to a CONST register, and a port write in the state LOCKED that is not
the unlock write change nothing and signal nothing. -/
def Obligations.DiscardedWritesChangeNothing : Prop :=
  ∀ s : State,
    (∀ (r : StorageReg) (data mask : Word), s.rf.lockBitSet r = true → exec (.cfgwr r.id data mask) s = .next s) ∧
    (∀ (data mask : Word), exec (.cfgwr 0x00 data mask) s = .next s ∧ exec (.cfgwr 0x08 data mask) s = .next s) ∧
    (∀ (p : Port) (v : Byte), s.cp.locked = true → ¬ (p = .index ∧ v = s.cfg.unlockByte) →
      exec (.iowr p v) s = .next s)

/-- R26, R108: for every row of the lock table, while the lock bit is 1 every write to a guarded register is a no-op,
whatever the data and the mask, and emits nothing; a read after it answers the value before it. -/
def Obligations.LockEnforcement : Prop :=
  ∀ (s : State) (r : StorageReg) (data mask : Word),
    (s.rf.lockctl.getLsbD 0 = true ∧ r ∈ [StorageReg.pam1, .pam2, .pam3, .pam4, .pam5, .pam6, .pam7] ∨
      s.rf.lockctl.getLsbD 1 = true ∧ r = .tom ∨
      s.rf.lockctl.getLsbD 2 = true ∧ (r = .apbase ∨ r = .apsize) ∨
      s.rf.lockctl.getLsbD 7 = true ∧ r = .lockctl ∨
      s.rf.smramc.getLsbD 4 = true ∧ (r = .smramc ∨ r = .esmramc)) →
    exec (.cfgwr r.id data mask) s = .next s ∧
    exec (.cfgrd r.id) s =
      .next { s with responses := s.responses ++ [(0 : BitVec 8) ++ (s.rf.get r).setWidth 32] }

/-- R103: the predicate is evaluated before the write. While its own lock bit is 0, a write to SMRAMC or LOCKCTL commits
every selected bit, the lock bit with them; if it set the lock bit, every later write to the register (and to ESMRAMC,
for D_LCK) is discarded. -/
def Obligations.LockJudgedBeforeWrite : Prop :=
  ∀ (s : State) (data mask : Word),
    (s.rf.smramc.getLsbD 4 = false →
      ∃ t, exec (.cfgwr 0x72 data mask) s = .next t ∧
        t.rf.smramc = mergeMasked s.rf.smramc (data.setWidth 8) (mask.setWidth 8) 0x58 ∧
        (t.rf.smramc.getLsbD 4 = true → ∀ data' mask',
          exec (.cfgwr 0x72 data' mask') t = .next t ∧ exec (.cfgwr 0x73 data' mask') t = .next t)) ∧
    (s.rf.lockctl.getLsbD 7 = false →
      ∃ t, exec (.cfgwr 0x50 data mask) s = .next t ∧
        t.rf.lockctl = mergeMasked s.rf.lockctl (data.setWidth 8) (mask.setWidth 8) 0x87 ∧
        (t.rf.lockctl.getLsbD 7 = true → ∀ data' mask', exec (.cfgwr 0x50 data' mask') t = .next t))

/-- R26, R180, R199: once LCK_LCK is set no transaction but RESET and RESTORE changes LOCKCTL or anything a set level-1
bit of it guards; once D_LCK is set none but those two changes SMRAMC or ESMRAMC. -/
def Obligations.FrozenUntilResetOrRestore : Prop :=
  ∀ (i : Instr) (s t : State), i ≠ .reset → i ≠ .restore → exec i s = .next t →
    (s.rf.lockctl.getLsbD 7 = true →
      t.rf.lockctl = s.rf.lockctl ∧
      (s.rf.lockctl.getLsbD 0 = true →
        t.rf.pam1 = s.rf.pam1 ∧ t.rf.pam2 = s.rf.pam2 ∧ t.rf.pam3 = s.rf.pam3 ∧ t.rf.pam4 = s.rf.pam4 ∧
        t.rf.pam5 = s.rf.pam5 ∧ t.rf.pam6 = s.rf.pam6 ∧ t.rf.pam7 = s.rf.pam7) ∧
      (s.rf.lockctl.getLsbD 1 = true → t.rf.tom = s.rf.tom) ∧
      (s.rf.lockctl.getLsbD 2 = true → t.rf.apbase = s.rf.apbase ∧ t.rf.apsize = s.rf.apsize)) ∧
    (s.rf.smramc.getLsbD 4 = true → t.rf.smramc = s.rf.smramc ∧ t.rf.esmramc = s.rf.esmramc)

/-- R107: a read after an unlocked write answers `(old & ~(mask & writeMask)) | (data & mask & writeMask)`; that is the
document's `(old & ~mask) | (data & mask)` exactly when every selected bit outside the write-mask carries its old value;
SCRATCH is never locked and satisfies it for every mask. -/
def Obligations.MaskCorrectness : Prop :=
  ∀ (s : State) (r : StorageReg) (data mask : Word),
    (s.rf.lockBitSet r = false →
      let old := s.rf.get r
      let d := data.setWidth r.width
      let m := mask.setWidth r.width
      let new := (old &&& ~~~(m &&& r.writeMask)) ||| (d &&& m &&& r.writeMask)
      ∃ t, exec (.cfgwr r.id data mask) s = .next t ∧
        exec (.cfgrd r.id) t = .next { t with responses := t.responses ++ [(0 : BitVec 8) ++ new.setWidth 32] } ∧
        (new = (old &&& ~~~m) ||| (d &&& m) ↔
          ∀ i, i < r.width → m.getLsbD i = true → r.writeMask.getLsbD i = false → d.getLsbD i = old.getLsbD i)) ∧
    (∃ t, exec (.cfgwr 0xF0 data mask) s = .next t ∧ t.rf.scratch = (s.rf.scratch &&& ~~~mask) ||| (data &&& mask))

/-- R60: repeating a CFGWR leaves the registers and the installation as doing it once, and emits either nothing or the
sequence the first one emitted; repeating an IOWR leaves the state as doing it once, but for the unlock write, whose
repetition is an index write of UNLOCK_BYTE. The key bytes are taken to differ, as their defaults do (R161 corner case
e). -/
def Obligations.RepeatedWrites : Prop :=
  (∀ (id : Byte) (data mask : Word) (s t : State), exec (.cfgwr id data mask) s = .next t →
    ∃ u, exec (.cfgwr id data mask) t = .next u ∧ u.rf = t.rf ∧ u.ri = t.ri ∧
      (u.installer = t.installer ∨
        ∃ sent, t.installer = s.installer ++ sent ∧ u.installer = t.installer ++ sent)) ∧
  (∀ (p : Port) (v : Byte) (s t : State), s.cfg.unlockByte ≠ s.cfg.lockByte → s.cp.bank.wf = true →
    exec (.iowr p v) s = .next t → exec (.iowr p v) t = .next
      (if s.cp.locked = true ∧ p = .index ∧ v = s.cfg.unlockByte then { t with cp := { t.cp with idx := v } } else t))

/-! ## The resolver -/

/-- R121, R122 (and R105): the resolver runs, once and on the new registers, on exactly its events: a CFGWR to a
decode-relevant register whose lock bit of R26 is 0, RESET, RESTORE; on every other transaction that completes the installation and the installer stream stay. -/
def Obligations.ResolverRunsOnItsEvents : Prop :=
  ∀ (i : Instr) (s t : State), exec i s = .next t →
    (resolverEvent i s →
      t.ri = resolve t.cfg t.rf ∧ t.installer = s.installer ++ installSequence (resolve t.cfg t.rf)) ∧
    (¬ resolverEvent i s → t.ri = s.ri ∧ t.installer = s.installer)

/-- The list the resolver computes by cutting, clamping and sorting answers, for every address, as the pointwise
arbiter does: the highest rule that reaches the address decides (R120, R124, R125, R127, R128). -/
def Obligations.ResolverMatchesArbiter : Prop :=
  ∀ (cfg : Config) (rf : RegFile) (a : Word),
    (regionAt (resolve cfg rf) a).map (fun r => (r.mode, r.offset a)) = arbiterAnswer cfg rf a

/-- R120, R124 for any tables that are valid (R5, R139; log 2), whatever registers their schema has: the list the resolver
computes answers, for every address, as the pointwise arbiter over them does. -/
def Obligations.AnyTableMatchesArbiter : Prop :=
  ∀ tables : Tables, tables.Valid → ∀ (cfg : Config) (rf : tables.schema.Values) (a : Word), validConfig cfg = true →
    (regionAt (tables.resolve cfg rf) a).map (fun r => (r.mode, r.offset a)) =
      arbiterOver tables.rules tables.tomb cfg rf a

/-- R33: for all register values and parameters the Region Installation is a list of ranges with start ≤ end, none
HIDDEN, sorted by start, no two overlapping; an address no entry covers is HIDDEN. -/
def Obligations.InstallationOrdered : Prop :=
  ∀ (cfg : Config) (rf : RegFile),
    (∀ e ∈ resolve cfg rf, e.start ≤ e.last ∧ e.mode ≠ .hidden) ∧
    (resolve cfg rf).Pairwise (fun p q => p.last < q.start) ∧
    ∀ (dir : Dir) (a : Word), (∀ e ∈ resolve cfg rf, ¬ (e.start ≤ a ∧ a ≤ e.last)) →
      (lookupResponse (resolve cfg rf) dir a).mode = .hidden

/-- R139: EXEMPLAR_NB is a valid table for all valid parameters: the order is total, every contributed range has
start ≤ end, no backing offset passes 0xFFFFFFFF, and no rule reads a register that is not decode-relevant. -/
def Obligations.RuleTableValid : Prop :=
  exemplarNb.rules.Pairwise (fun j k => j.index < k.index) ∧
  (∀ (cfg : Config) (rf : RegFile) (k : DecodeRule) (c : Contribution), validConfig cfg = true →
    k ∈ exemplarNb.rules → k.eval cfg rf = some c →
      c.start ≤ c.last ∧ c.backing + (c.last - c.start) ≤ 0xFFFFFFFF) ∧
  (∀ (cfg : Config) (rf rf' : RegFile) (k : DecodeRule), k ∈ exemplarNb.rules →
    (∀ r, exemplarNb.schema.decodeRelevant r = true → rf.get r = rf'.get r) → k.eval cfg rf = k.eval cfg rf')

/-- R125: after any resolver run no RAM-backed entry reaches the clamp value, but for pieces of the alias XSMRAM, which
needs both its enable bits. -/
def Obligations.NothingRamBackedAboveClamp : Prop :=
  ∀ (cfg : Config) (rf : RegFile) (e : Region), e ∈ resolve cfg rf → e.mode ≠ .passThrough →
    min (rf.tom.toNat % 4096 * 2 ^ 20) cfg.ramSize ≤ e.last.toNat →
    0xFEDA0000 ≤ e.start.toNat ∧ e.last.toNat ≤ 0xFEDBFFFF ∧ rf.smramc.getLsbD 6 = true ∧ rf.esmramc.getLsbD 5 = true

/-- R120: the resolver reads the twelve decode-relevant registers, RAM_SIZE and ALIAS_BACKING, and nothing else: not
LOCKCTL, not SCRATCH, no other parameter. -/
def Obligations.ResolverReadsOnlyItsInputs : Prop :=
  ∀ (cfg cfg' : Config) (rf rf' : RegFile),
    cfg.ramSize = cfg'.ramSize → cfg.aliasBacking = cfg'.aliasBacking →
    (∀ r, r ≠ .lockctl → r ≠ .scratch → rf.get r = rf'.get r) →
      resolve cfg rf = resolve cfg' rf'

/-- R85, R129: the sequence a resolver run sends for a list is UNINSTALL_ALL and then one INSTALL per entry in list
order. The fields of a command word: KIND, MODE, START, END, BACKING; MODE is not 0 in an INSTALL of a list the
resolver makes; UNINSTALL_ALL is all zero. -/
def Obligations.CommandWordLayout : Prop :=
  (∀ ri : List Region,
    installSequence ri = Command.uninstallAll.pack :: ri.map fun e => (Command.install e).pack) ∧
  Command.uninstallAll.pack = 0 ∧
  ∀ r : Region,
    (Command.install r).pack.extractLsb' 99 1 = 1 ∧
    (Command.install r).pack.extractLsb' 96 3 = r.mode.code ∧
    (Command.install r).pack.extractLsb' 64 32 = r.start ∧
    (Command.install r).pack.extractLsb' 32 32 = r.last ∧
    (Command.install r).pack.extractLsb' 0 32 = r.backing ∧
    (∀ (cfg : Config) (rf : RegFile), r ∈ resolve cfg rf → r.mode.code ≠ 0)

/-- R84, R91: the fields of a response word: three zero bits, ROUTE, MODE, VAL; the codes of the routes and the modes,
and that the two PAM bits of a sub-range are its mode code. -/
def Obligations.ResponseWordLayout : Prop :=
  [Mode.hidden, .romShadow, .writeOnlyShadow, .ram, .passThrough].map Mode.code = [0, 1, 2, 3, 4] ∧
  [Route.fallthrough, .rambuf, .ext, .drop].map Route.code = [0, 1, 2, 3] ∧
  (∀ we re : Bool, (Mode.ofEnables we re).code = (0 : BitVec 1) ++ BitVec.ofBool we ++ BitVec.ofBool re) ∧
  ∀ r : Response,
    r.pack.extractLsb' 37 3 = 0 ∧
    r.pack.extractLsb' 35 2 = r.route.code ∧
    r.pack.extractLsb' 32 3 = r.mode.code ∧
    r.pack.extractLsb' 0 32 = r.val

/-! ## LOOKUP -/

/-- R141: LOOKUP answers from the one entry that covers the address, by its mode and the direction, and FALLTHROUGH,
HIDDEN, 0 where none does; it changes nothing else. -/
def Obligations.LookupAnswersRoute : Prop :=
  ∀ (s : State) (dir : Dir) (a : Word), regionsOrdered s.ri →
    ((∀ e ∈ s.ri, ¬ (e.start ≤ a ∧ a ≤ e.last)) →
      exec (.lookup dir a) s = .next { s with responses := s.responses ++ [0] }) ∧
    (∀ e ∈ s.ri, e.start ≤ a → a ≤ e.last →
      exec (.lookup dir a) s = .next
        { s with
          responses := s.responses ++
            [match e.mode, dir with
              | .ram, _ => (0x0B : BitVec 8) ++ (e.backing + (a - e.start))
              | .romShadow, .read => (0x09 : BitVec 8) ++ (e.backing + (a - e.start))
              | .romShadow, .write => (0x19 : BitVec 8) ++ (0 : Word)
              | .writeOnlyShadow, .read => (0x02 : BitVec 8) ++ (0 : Word)
              | .writeOnlyShadow, .write => (0x0A : BitVec 8) ++ (e.backing + (a - e.start))
              | .passThrough, _ => (0x14 : BitVec 8) ++ (e.backing + (a - e.start))
              | .hidden, _ => 0] })

/-- R133, R134: below 0x000C0000, where no enabled aperture reaches: low RAM up to the clamp value, and the legacy video
window only while VSMR_EN is 1; everything else falls through. -/
def Obligations.LookupBelowPam : Prop :=
  ∀ (s : State) (dir : Dir) (a : Word), s.ri = resolve s.cfg s.rf → ¬ s.rf.apertureReaches a →
    a.toNat < 0x000C0000 →
      exec (.lookup dir a) s = .next
        { s with
          responses := s.responses ++
            [if (a.toNat < 0x000A0000 ∨ s.rf.smramc.getLsbD 3 = true) ∧
                a.toNat < min (s.rf.tom.toNat % 4096 * 2 ^ 20) s.cfg.ramSize
              then (0x0B : BitVec 8) ++ a else 0] }

/-- R135: in PAM sub-range `j`, where no enabled aperture reaches, the two bits of its half of PAM(j div 2 + 1) decide the
route below the clamp value, and the address falls through at or above it; the strip 0x000F8000 to 0x000FFFFF always
falls through. -/
def Obligations.LookupInPam : Prop :=
  ∀ (s : State) (dir : Dir) (a : Word), s.ri = resolve s.cfg s.rf → ¬ s.rf.apertureReaches a →
    (∀ j, j < 14 → 0x000C0000 + j * 0x4000 ≤ a.toNat → a.toNat < 0x000C0000 + (j + 1) * 0x4000 →
      let pam := [s.rf.pam1, s.rf.pam2, s.rf.pam3, s.rf.pam4, s.rf.pam5, s.rf.pam6, s.rf.pam7].getD (j / 2) 0
      let re := pam.getLsbD (4 * (j % 2))
      let we := pam.getLsbD (4 * (j % 2) + 1)
      exec (.lookup dir a) s = .next
        { s with
          responses := s.responses ++
            [if a.toNat < min (s.rf.tom.toNat % 4096 * 2 ^ 20) s.cfg.ramSize then
                match we, re, dir with
                | true, true, _ => (0x0B : BitVec 8) ++ a
                | false, true, .read => (0x09 : BitVec 8) ++ a
                | false, true, .write => (0x19 : BitVec 8) ++ (0 : Word)
                | true, false, .read => (0x02 : BitVec 8) ++ (0 : Word)
                | true, false, .write => (0x0A : BitVec 8) ++ a
                | false, false, _ => 0
              else 0] }) ∧
    (0x000F8000 ≤ a.toNat → a.toNat ≤ 0x000FFFFF →
      exec (.lookup dir a) s = .next { s with responses := s.responses ++ [0] })

/-- R136, R137: from 0x00100000 on, where no enabled aperture and no enabled alias reaches: RAM at its own offset below
MAINTOP and RAM_SIZE; the stolen window and everything above fall through. So it is in the alias range 0xFEDA0000 to
0xFEDBFFFF too while D_OPEN or SM_CACHE is 0. -/
def Obligations.LookupMainRam : Prop :=
  ∀ (s : State) (dir : Dir) (a : Word), s.ri = resolve s.cfg s.rf → ¬ s.rf.apertureReaches a →
    0x00100000 ≤ a.toNat →
    ¬ (0xFEDA0000 ≤ a.toNat ∧ a.toNat ≤ 0xFEDBFFFF ∧ s.rf.smramc.getLsbD 6 = true ∧ s.rf.esmramc.getLsbD 5 = true) →
      let tseg := if s.rf.esmramc.getLsbD 0 then 0x20000 * 2 ^ (s.rf.esmramc.extractLsb' 1 2).toNat else 0
      exec (.lookup dir a) s = .next
        { s with
          responses := s.responses ++
            [if a.toNat < s.rf.tom.toNat % 4096 * 2 ^ 20 - tseg ∧ a.toNat < s.cfg.ramSize
              then (0x0B : BitVec 8) ++ a else 0] }

/-- R137: in the alias range, where no enabled aperture reaches and D_OPEN and SM_CACHE are both 1, the access goes to RAM at
ALIAS_BACKING plus the distance from 0xFEDA0000, whatever the clamp value. -/
def Obligations.LookupSmramAlias : Prop :=
  ∀ (s : State) (dir : Dir) (a : Word), s.ri = resolve s.cfg s.rf → ¬ s.rf.apertureReaches a →
    s.rf.smramc.getLsbD 6 = true → s.rf.esmramc.getLsbD 5 = true → 0xFEDA0000 ≤ a.toNat → a.toNat ≤ 0xFEDBFFFF →
      exec (.lookup dir a) s = .next
        { s with responses := s.responses ++ [(0x0B : BitVec 8) ++ (s.cfg.aliasBacking + (a - 0xFEDA0000))] }

/-- R138: the enabled aperture wins wherever it reaches, with a size of 4 MiB shifted by the size code, codes 7 to 15
acting as 6; the offset is the distance from APBASE. While AP_EN is 0 no entry is PASS-THROUGH. -/
def Obligations.LookupAperture : Prop :=
  ∀ s : State, s.ri = resolve s.cfg s.rf →
    (s.rf.apsize.getLsbD 7 = true → ∀ (dir : Dir) (a : Word), s.rf.apbase.toNat ≤ a.toNat →
      a.toNat < s.rf.apbase.toNat + 0x00400000 * 2 ^ min (s.rf.apsize.toNat % 16) 6 →
        exec (.lookup dir a) s = .next
          { s with responses := s.responses ++ [(0x14 : BitVec 8) ++ (a - s.rf.apbase)] }) ∧
    (s.rf.apsize.getLsbD 7 = false → ∀ e ∈ s.ri, e.mode ≠ .passThrough)

/-! ## The configuration port -/

/-- R162: IORD answers the index in both states; on the data port 0x00 while LOCKED, and the cell of device 0 for an
index up to 0x2F or of the selected device above it while UNLOCKED; it changes nothing else. -/
def Obligations.IordAnswersPort : Prop :=
  ∀ s : State,
    exec (.iord .index) s = .next { s with responses := s.responses ++ [(0 : BitVec 32) ++ s.cp.idx] } ∧
    (s.cp.locked = true → exec (.iord .data) s = .next { s with responses := s.responses ++ [0] }) ∧
    (s.cp.locked = false →
      exec (.iord .data) s = .next
        { s with
          responses := s.responses ++
            [(0 : BitVec 32) ++
              s.cp.bank.read (256 * (if s.cp.idx.toNat ≤ 0x2F then 0 else s.cp.sel.toNat) + s.cp.idx.toNat)] })

/-- R161, R165, R166: the write rows T1 to T3 and T6 to T10 of the transition table, each a completion. DEVSEL_INDEX is
in the shared sub-range, as R9 requires. -/
def Obligations.PortTransitionTable : Prop :=
  ∀ (s : State) (v : Byte), s.cfg.devselIndex.toNat ≤ 0x2F →
    -- T1
    (s.cp.locked = true → v = s.cfg.unlockByte →
      exec (.iowr .index v) s = .next
        { s with cp := { s.cp with locked := false, idx := if s.cfg.keyLatchesIndex then v else s.cp.idx } }) ∧
    -- T2
    (s.cp.locked = true → v ≠ s.cfg.unlockByte → exec (.iowr .index v) s = .next s) ∧
    -- T3
    (s.cp.locked = true → exec (.iowr .data v) s = .next s) ∧
    -- T6
    (s.cp.locked = false → v = s.cfg.lockByte →
      exec (.iowr .index v) s = .next
        { s with cp := { s.cp with locked := true, idx := if s.cfg.keyLatchesIndex then v else s.cp.idx } }) ∧
    -- T7
    (s.cp.locked = false → v ≠ s.cfg.lockByte →
      exec (.iowr .index v) s = .next { s with cp := { s.cp with idx := v } }) ∧
    -- T8
    (s.cp.locked = false → s.cp.idx.toNat ≤ 0x2F → s.cp.idx ≠ s.cfg.devselIndex →
      exec (.iowr .data v) s = .next { s with cp := { s.cp with bank := s.cp.bank.write s.cp.idx.toNat v } }) ∧
    -- T9
    (s.cp.locked = false → s.cp.idx = s.cfg.devselIndex →
      exec (.iowr .data v) s = .next
        { s with cp := { s.cp with bank := s.cp.bank.write s.cp.idx.toNat v, sel := v.setWidth 4 } }) ∧
    -- T10
    (s.cp.locked = false → 0x2F < s.cp.idx.toNat →
      exec (.iowr .data v) s = .next
        { s with cp := { s.cp with bank := s.cp.bank.write (256 * s.cp.sel.toNat + s.cp.idx.toNat) v } })

/-- R163, R31: a data write while UNLOCKED reads back through the data port with all eight bits, and every cell but the
one it reaches (device 0 for an index up to 0x2F, else the selected device) keeps its byte. -/
def Obligations.BankWriteReadsBack : Prop :=
  ∀ (s : State) (v : Byte), s.cp.bank.wf = true → s.cp.locked = false →
    ∃ t, exec (.iowr .data v) s = .next t ∧
      exec (.iord .data) t = .next { t with responses := t.responses ++ [(0 : BitVec 32) ++ v] } ∧
      t.cp.idx = s.cp.idx ∧
      ∀ (d : BitVec 4) (i : Byte), ¬ (d = (if s.cp.idx.toNat ≤ 0x2F then 0 else s.cp.sel) ∧ i = s.cp.idx) →
        t.cp.bank.read (256 * d.toNat + i.toNat) = s.cp.bank.read (256 * d.toNat + i.toNat)

/-- R32, R166, R167 item (c): in the state LOCKED a port write that is not the unlock write changes nothing at all,
whatever KEY_LATCHES_INDEX. The unlock write changes nothing outside the port, and of the port neither the device nor the
cells nor, unless KEY_LATCHES_INDEX, the index; it alone leaves the state LOCKED. The index stays readable and data reads
answer 0. -/
def Obligations.LockedPortIsInert : Prop :=
  ∀ (s t : State) (p : Port) (v : Byte), s.cp.locked = true → exec (.iowr p v) s = .next t →
    (¬ (p = .index ∧ v = s.cfg.unlockByte) → t = s) ∧
    t = { s with cp := t.cp } ∧
    t.cp.sel = s.cp.sel ∧ t.cp.bank = s.cp.bank ∧
    (s.cfg.keyLatchesIndex = false → t.cp.idx = s.cp.idx) ∧
    (t.cp.locked = false ↔ p = .index ∧ v = s.cfg.unlockByte) ∧
    exec (.iord .index) s = .next { s with responses := s.responses ++ [(0 : BitVec 32) ++ s.cp.idx] } ∧
    exec (.iord .data) s = .next { s with responses := s.responses ++ [0] }

/-- R217: with KEY_LATCHES_INDEX false, locking changes `locked` only, and unlocking after it gives the state before
both: index, device and cells are kept. -/
def Obligations.PortSurvivesLock : Prop :=
  ∀ s : State, s.cfg.keyLatchesIndex = false → s.cp.locked = false →
    exec (.iowr .index s.cfg.lockByte) s = .next { s with cp := { s.cp with locked := true } } ∧
    exec (.iowr .index s.cfg.unlockByte) { s with cp := { s.cp with locked := true } } = .next s

/-- R215: index LOCK_BYTE is unreachable. With distinct keys and LOCK_BYTE not 0, every transaction but RESTORE keeps the
index away from LOCK_BYTE (with KEY_LATCHES_INDEX: unless the port is LOCKED), and none but RESTORE and RESET changes a
cell at that index. -/
def Obligations.LockByteIndexUnreachable : Prop :=
  ∀ (i : Instr) (s t : State), s.cfg.unlockByte ≠ s.cfg.lockByte → s.cfg.lockByte ≠ 0 → i ≠ .restore →
    exec i s = .next t →
    (s.cp.idx ≠ s.cfg.lockByte ∨ s.cfg.keyLatchesIndex = true ∧ s.cp.locked = true) →
      (t.cp.idx ≠ t.cfg.lockByte ∨ t.cfg.keyLatchesIndex = true ∧ t.cp.locked = true) ∧
      (i ≠ .reset → ∀ d : BitVec 4,
        t.cp.bank.read (256 * d.toNat + s.cfg.lockByte.toNat) = s.cp.bank.read (256 * d.toNat + s.cfg.lockByte.toNat))

/-- R31: a cell of a device other than 0 at an index up to 0x2F changes only by RESET or RESTORE. -/
def Obligations.HiddenCellsKept : Prop :=
  ∀ (i : Instr) (s t : State), i ≠ .reset → i ≠ .restore → exec i s = .next t →
    ∀ (d : BitVec 4) (x : Byte), d ≠ 0 → x.toNat ≤ 0x2F →
      t.cp.bank.read (256 * d.toNat + x.toNat) = s.cp.bank.read (256 * d.toNat + x.toNat)

/-- R164: the selected device changes in no other way than a data write while UNLOCKED at DEVSEL_INDEX, RESET or
RESTORE; that write selects `v[3:0]` and stores all eight bits in device 0's cell. -/
def Obligations.DeviceSelect : Prop :=
  (∀ (i : Instr) (s t : State), exec i s = .next t → t.cp.sel ≠ s.cp.sel →
    i = .reset ∨ i = .restore ∨
      ∃ v, i = .iowr .data v ∧ s.cp.locked = false ∧ s.cp.idx = s.cfg.devselIndex) ∧
  (∀ (s : State) (v : Byte), s.cfg.devselIndex.toNat ≤ 0x2F → s.cp.bank.wf = true → s.cp.locked = false →
    s.cp.idx = s.cfg.devselIndex →
    ∃ t, exec (.iowr .data v) s = .next t ∧ t.cp.sel.toNat = v.toNat % 16 ∧
      t.cp.bank.read s.cfg.devselIndex.toNat = v)

/-! ## Host operations -/

/-- R36, R37, R180, R210: RESET, whatever is locked, gives every STORAGE register its reset value, locks the port at
device 0 and index 0 with the reset image of the bank, and runs the resolver; at the default parameters the registers, the
port, the installation and the commands are those of R210. That the histories are only extended is the model's reading
(log 6), and that the waiting requests and the blob port stay is its choice (log 3, log 4). -/
def Obligations.ResetResult : Prop :=
  (∀ s : State,
    let rf : RegFile :=
      ⟨0, 0, s.cfg.tomReset, 0, 0, 0, 0, 0, 0, 0, 0, 0, 0, 0⟩
    exec .reset s = .next
      { s with
        rf := rf
        cp := ⟨true, 0, 0, s.cfg.bankReset⟩
        ri := resolve s.cfg rf
        installer := s.installer ++ installSequence (resolve s.cfg rf) }) ∧
  (∀ s : State, s.cfg = Config.default →
    ∃ t, exec .reset s = .next t ∧ t.rf = ⟨0, 0, 0x0020, 0, 0, 0, 0, 0, 0, 0, 0, 0, 0, 0⟩ ∧
      t.cp.locked = true ∧ t.cp.sel = 0 ∧ t.cp.idx = 0x00 ∧ (∀ a, t.cp.bank.read a = 0x00) ∧
      t.ri = [⟨0x00000000, 0x0009FFFF, .ram, 0x00000000⟩, ⟨0x00100000, 0x01FFFFFF, .ram, 0x00100000⟩] ∧
      t.installer = s.installer ++
        [0x0000000000000000000000000, 0xB000000000009FFFF00000000, 0xB0010000001FFFFFF00100000])

/-- R181, R183: SNAPSHOT writes one blob of 4120 bytes and answers 0, and changes nothing else; each register lies at its
offset, least significant byte first, then the port's fields, then the bank, device-major. That the blob goes to a list
of its own and leaves what stands on the blob port is the model's choice (log 4). -/
def Obligations.SnapshotResult : Prop :=
  ∀ s : State, ∃ b : Blob,
    exec .snapshot s = .next { s with blobsOut := s.blobsOut ++ [b], responses := s.responses ++ [0] } ∧
    b.length = 4120 ∧
    (∀ (r : StorageReg) (o k : Nat), (r, o) ∈ blobTable → k < r.width / 8 →
      b.getD (o + k) 0 = (s.rf.get r).extractLsb' (8 * k) 8) ∧
    b.getD 0x0015 0 = (if s.cp.locked then 0x01 else 0x00) ∧
    b.getD 0x0016 0 = (0 : BitVec 4) ++ s.cp.sel ∧
    b.getD 0x0017 0 = s.cp.idx ∧
    ∀ (d : BitVec 4) (i : Byte),
      b.getD (0x0018 + 256 * d.toNat + i.toNat) 0 = s.cp.bank.read (256 * d.toNat + i.toNat)

/-- R182: RESTORE, whatever is locked, loads every register from its bytes with its reserved bits at their reset value,
and the port's fields and cells, runs the resolver on the result and changes nothing else; a blob of another length is
refused. The waiting requests and the blob port, which stay, are the model's own fields (log 3, log 4). -/
def Obligations.RestoreResult : Prop :=
  ∀ s : State,
    (s.blobPort.length = 4120 →
      ∃ t, exec .restore s = .next t ∧
        (∀ (r : StorageReg) (o k j : Nat), (r, o) ∈ blobTable → k < r.width / 8 → j < 8 →
          (t.rf.get r).getLsbD (8 * k + j) =
            if r.writeMask.getLsbD (8 * k + j) then (s.blobPort.getD (o + k) 0).getLsbD j
            else (r.resetValue s.cfg).getLsbD (8 * k + j)) ∧
        (t.cp.locked = true ↔ s.blobPort.getD 0x0015 0 ≠ 0) ∧
        t.cp.sel = (s.blobPort.getD 0x0016 0).extractLsb' 0 4 ∧
        t.cp.idx = s.blobPort.getD 0x0017 0 ∧
        (∀ (d : BitVec 4) (i : Byte),
          t.cp.bank.read (256 * d.toNat + i.toNat) = s.blobPort.getD (0x0018 + 256 * d.toNat + i.toNat) 0) ∧
        t.ri = resolve s.cfg t.rf ∧ t.installer = s.installer ++ installSequence (resolve s.cfg t.rf) ∧
        t.cfg = s.cfg ∧ t.responses = s.responses ∧ t.blobsOut = s.blobsOut ∧
        t.requests = s.requests ∧ t.blobPort = s.blobPort) ∧
    (s.blobPort.length ≠ 4120 → exec .restore s = .refused (.wrongBlobLength s.blobPort.length))

/-- R182: the blob a SNAPSHOT made, restored into any core with the same parameters, gives RF, CP and RI of the core it
was made from. The host puts the blob from the list of SNAPSHOT's blobs on the blob port (log 4); the canonical form of
the bank in the premise is the model's own (log 8). -/
def Obligations.SnapshotThenRestore : Prop :=
  ∀ s : State, s.Inv →
    ∃ (b : Blob) (t : State), exec .snapshot s = .next t ∧ t.blobsOut = s.blobsOut ++ [b] ∧
      ∀ w : State, w.cfg = s.cfg →
        ∃ u, exec .restore { w with blobPort := b } = .next u ∧ u.rf = s.rf ∧ u.cp = s.cp ∧ u.ri = s.ri

/-! ## The whole machine -/

/-- R59, R100, R181: NOP, CFGRD, IORD, LOOKUP and SNAPSHOT never fail (a CFGRD of an id of the schema) and change nothing
but the output histories: the registers, the port, the installation, the commands sent, the requests and the blob port
stay. That SNAPSHOT leaves the blob port is the model's choice (log 4), as the waiting requests are (log 3). -/
def Obligations.ReadsChangeNoState : Prop :=
  ∀ (i : Instr) (s : State),
    (∀ id data mask, i ≠ .cfgwr id data mask) → (∀ p v, i ≠ .iowr p v) → i ≠ .reset → i ≠ .restore →
      (i.wellFormed = true → ∃ t, exec i s = .next t) ∧
      ∀ t, exec i s = .next t → t = { s with responses := t.responses, blobsOut := t.blobsOut }

/-- R38: RF changes only by CFGWR, RESET and RESTORE; CP changes only by IOWR, RESET and RESTORE. -/
def Obligations.OnlyNamedTransactionsChangeState : Prop :=
  ∀ (i : Instr) (s t : State), exec i s = .next t →
    (t.rf ≠ s.rf → (∃ id data mask, i = .cfgwr id data mask) ∨ i = .reset ∨ i = .restore) ∧
    (t.cp ≠ s.cp → (∃ p v, i = .iowr p v) ∨ i = .reset ∨ i = .restore)

/-- R35, R40, R82: the output histories only grow, one response for each transaction that answers and none for the
others, one blob for a SNAPSHOT only; the parameters are not touched. That nothing, RESET neither, empties a history is
the model's reading (log 6); the history of blobs apart from the blob port, and the blob port left as it stood, are its
choice (log 4), and so are the waiting requests (log 3). -/
def Obligations.HistoriesOnlyGrow : Prop :=
  ∀ (i : Instr) (s t : State), exec i s = .next t →
    (∃ sent, t.installer = s.installer ++ sent) ∧
    (∃ answer, t.responses = s.responses ++ answer ∧ answer.length = if responds i then 1 else 0) ∧
    (∃ out, t.blobsOut = s.blobsOut ++ out ∧ out.length = if i = .snapshot then 1 else 0) ∧
    t.cfg = s.cfg ∧ t.requests = s.requests ∧ t.blobPort = s.blobPort

/-- R12: the bits outside the write-masks hold their reset values at reset, and every step keeps it so. -/
def Obligations.StepKeepsReservedBits : Prop :=
  State.reset.rf.reservedKept State.reset.cfg ∧
  ∀ s t : State, s.rf.reservedKept s.cfg → step s = .next t → t.rf.reservedKept t.cfg

/-- R34: `RI = resolve(RF)` at reset, and every step keeps it so. -/
def Obligations.StepKeepsDerivedInstallation : Prop :=
  State.reset.ri = resolve State.reset.cfg State.reset.rf ∧
  ∀ s t : State, s.ri = resolve s.cfg s.rf → step s = .next t → t.ri = resolve t.cfg t.rf

/-- R34 for a core constructed from any lawful schema and any valid tables over it (R5, R11, R139; as
premises both notions are the model's, log 2): every step keeps `RI = resolve(RF)`. At EXEMPLAR_NB that core steps as the
machine does. -/
def Obligations.AnyTableKeepsDerivedInstallation : Prop :=
  (∀ s : State, exemplarNb.step s = step s) ∧
  ∀ tables : Tables, tables.schema.Lawful → tables.Valid →
    ∀ s t : State tables.schema.Values, s.ri = tables.resolve s.cfg s.rf → tables.step s = .next t →
      t.ri = tables.resolve t.cfg t.rf

/-- EXEMPLAR_NB against the model's two notions of log 2, both DEDUCED. Its schema is lawful: widths, one id for each
register, the blob in ascending id order (R11, R14, R183). Its tables are valid: what R139 asks of the rules, and that the
top-of-memory value too reads decode-relevant registers only, which R139 (d) does not say; here it reads TOM (R132), which
is decode-relevant (R27). And the core these tables build is the machine, transaction by transaction (R5). -/
def Obligations.ExemplarIsLawful : Prop :=
  exemplarNb.schema.Lawful ∧ exemplarNb.Valid ∧ ∀ (i : Instr) (s : State), exemplarNb.exec i s = exec i s

/-- R101, R102, R104, R105, R87 for a core constructed from any lawful schema (R5, R11; lawful is the model's notion,
log 2). An id that is no register is refused; CFGRD answers the register zero-extended; a CFGWR to a CONST
register or to a locked one changes nothing; a CFGWR to an unlocked STORAGE register stores bit by bit what both masks
select, keeps every other register, and runs the resolver on the new values if and only if the register is
decode-relevant. -/
def Obligations.AnySchemaRegisterAccess : Prop :=
  ∀ tables : Tables, tables.schema.Lawful → ∀ (s : State tables.schema.Values) (id : Byte) (data mask : Word),
    (tables.schema.regOfId id = none →
      tables.exec (.cfgrd id) s = .refused (.unknownRegister id) ∧
      tables.exec (.cfgwr id data mask) s = .refused (.unknownRegister id)) ∧
    (∀ c, tables.schema.regOfId id = some (.const c) →
      tables.exec (.cfgrd id) s = .next
        { s with responses := s.responses ++ [(0 : BitVec 8) ++ (tables.schema.constValue s.cfg c).setWidth 32] } ∧
      tables.exec (.cfgwr id data mask) s = .next s) ∧
    ∀ r, tables.schema.regOfId id = some (.storage r) →
      tables.exec (.cfgrd id) s = .next
        { s with responses := s.responses ++ [(0 : BitVec 8) ++ (tables.schema.get s.rf r).setWidth 32] } ∧
      (tables.schema.locked s.rf r = true → tables.exec (.cfgwr id data mask) s = .next s) ∧
      (tables.schema.locked s.rf r = false →
        ∃ rf : tables.schema.Values,
          (∀ i, i < tables.schema.width r →
            (tables.schema.get rf r).getLsbD i =
              if mask.getLsbD i && (tables.schema.writeMask r).getLsbD i then data.getLsbD i
              else (tables.schema.get s.rf r).getLsbD i) ∧
          (∀ q, q ≠ r → tables.schema.get rf q = tables.schema.get s.rf q) ∧
          tables.exec (.cfgwr id data mask) s = .next
            (if tables.schema.decodeRelevant r = true then
              { s with
                rf := rf
                ri := tables.resolve s.cfg rf
                installer := s.installer ++ installSequence (tables.resolve s.cfg rf) }
            else { s with rf := rf }))

/-- R36, R180 and R182, R183 for a core constructed from any lawful schema (R5, R11; lawful is the model's notion, log 2).
RESET gives every STORAGE register
its reset value, the port its reset state, and runs the resolver. SNAPSHOT answers 0 and writes a blob of the schema's
length; restored into any core with the same parameters in which it stands on the blob port, it gives the registers and
the port it was made from, where the reserved bits hold their reset value and the bank is canonical (the model's own,
log 8). That the blob of another schema is laid out as R183 lays out that of EXEMPLAR_NB is the model's reading
(log 2), and so is that RESET only extends the histories (log 6). That the waiting requests stay is the model's choice
(log 3), and so is that SNAPSHOT's blob goes to a list of its own and every one of the three leaves what stands on the
blob port (log 4). -/
def Obligations.AnySchemaHostOperations : Prop :=
  ∀ tables : Tables, tables.schema.Lawful → ∀ s : State tables.schema.Values,
    (∃ rf : tables.schema.Values,
      (∀ r, tables.schema.get rf r = tables.schema.resetValue s.cfg r) ∧
      tables.exec .reset s = .next
        { s with
          rf := rf
          cp := ⟨true, 0, 0, s.cfg.bankReset⟩
          ri := tables.resolve s.cfg rf
          installer := s.installer ++ installSequence (tables.resolve s.cfg rf) }) ∧
    ∃ b : Blob, b.length = tables.schema.blobLength ∧
      tables.exec .snapshot s = .next { s with blobsOut := s.blobsOut ++ [b], responses := s.responses ++ [0] } ∧
      ((∀ r, tables.schema.get s.rf r &&& ~~~tables.schema.writeMask r =
          tables.schema.resetValue s.cfg r &&& ~~~tables.schema.writeMask r) →
        s.cp.bank.wf = true → ∀ w : State tables.schema.Values, w.cfg = s.cfg → w.blobPort = b →
          tables.exec .restore w = .next
            { w with
              rf := s.rf
              cp := s.cp
              ri := tables.resolve s.cfg s.rf
              installer := w.installer ++ installSequence (tables.resolve s.cfg s.rf) })

/-- Every step, from every state with the invariants, keeps them all: valid parameters, R12, the canonical form of the
bank (the model's own, log 8), and R34; and the installation it leaves is ordered (R33). -/
def Obligations.StepKeepsInvariants : Prop :=
  ∀ s t : State, s.Inv → step s = .next t → t.Inv ∧ regionsOrdered t.ri ∧ t.cfg = s.cfg

/-- R210, R211: the state after reset has the invariants; a RESET of it changes RF, CP and RI in nothing and emits what
its installer stream holds, exactly the one reset sequence. -/
def Obligations.ResetHasInvariants : Prop :=
  State.reset.Inv ∧
  exec .reset State.reset =
    .next { State.reset with installer := State.reset.installer ++ State.reset.installer } ∧
  State.reset.installer = installSequence (resolve State.reset.cfg State.reset.rf)

/-! ## The list of the resolver, entry by entry -/

/-- R128: one entry per surviving piece, and pieces are not merged. Two neighbouring mapped addresses lie in one entry
exactly when the same rule decides both (R124), on EXEMPLAR_NB for all registers and parameters, and on any valid tables
(R5, R139; valid is the model's notion, log 2). -/
def Obligations.EntriesAreNotMerged : Prop :=
  (∀ (cfg : Config) (rf : RegFile), entriesArePieces exemplarNb.rules cfg rf (resolve cfg rf)) ∧
  ∀ tables : Tables, tables.Valid → ∀ (cfg : Config) (rf : tables.schema.Values), validConfig cfg = true →
    entriesArePieces tables.rules cfg rf (tables.resolve cfg rf)
end

