-- ==== Sys2Proof/Laws/Memory.lean ====
section
/-!
SUPPORT. The bank: a read after a write, what a write leaves alone, the canonical form and the operations that keep it.
-/
namespace Sys2Proof.Machine

theorem Memory.wfFrom_cons {lo a : Nat} {v : Byte} {m : Memory} :
    Memory.wfFrom lo ((a, v) :: m) = true ↔
      lo ≤ a ∧ a < bankSize ∧ v ≠ Memory.unlisted ∧ Memory.wfFrom (a + 1) m = true := by
  simp [Memory.wfFrom, and_assoc]

/-- The canonical form from a higher bound is one from a lower bound. -/
theorem Memory.wfFrom_mono {lo lo' : Nat} {m : Memory} (h : lo' ≤ lo) (hm : Memory.wfFrom lo m = true) :
    Memory.wfFrom lo' m = true := by
  cases m with
  | nil => rfl
  | cons c m => exact Memory.wfFrom_cons.mpr ⟨h.trans (Memory.wfFrom_cons.mp hm).1, (Memory.wfFrom_cons.mp hm).2⟩

/-- Below its bound a canonical memory lists nothing. -/
theorem Memory.read_of_lt {lo : Nat} {m : Memory} (hm : Memory.wfFrom lo m = true) {a : Nat} (h : a < lo) :
    m.read a = Memory.unlisted := by
  induction m generalizing lo with
  | nil => rfl
  | cons c m ih =>
    obtain ⟨h1, -, -, h4⟩ := Memory.wfFrom_cons.mp hm
    have hne : c.1 ≠ a := by omega
    simp only [Memory.read, hne, if_false]
    exact ih h4 (by omega)

/-- A write leaves every other address alone. -/
theorem Memory.read_write_ne (m : Memory) {a b : Nat} (v : Byte) (h : b ≠ a) : (m.write a v).read b = m.read b := by
  induction m with
  | nil => simp only [Memory.write]; split <;> simp [Memory.read, h.symm]
  | cons c m ih =>
    obtain ⟨x, w⟩ := c
    simp only [Memory.write]
    split
    · split <;> simp [Memory.read, h.symm]
    · split
      · rename_i hax; subst hax
        split <;> simp [Memory.read, h.symm]
      · simp [Memory.read, ih]

/-- A read after a write to the same address gives the value written. -/
theorem Memory.read_write_same {lo : Nat} {m : Memory} (hm : Memory.wfFrom lo m = true) (a : Nat) (v : Byte) :
    (m.write a v).read a = v := by
  induction m generalizing lo with
  | nil => simp only [Memory.write]; split <;> simp_all [Memory.read]
  | cons c m ih =>
    obtain ⟨x, w⟩ := c
    obtain ⟨-, -, -, h4⟩ := Memory.wfFrom_cons.mp hm
    simp only [Memory.write]
    split
    · rename_i hlt
      split
      · rename_i hv
        have hne : x ≠ a := by omega
        simp only [Memory.read, hne, if_false, hv]
        exact Memory.read_of_lt h4 (by omega)
      · simp [Memory.read]
    · split
      · rename_i hax; subst hax
        split
        · rename_i hv; rw [hv]; exact Memory.read_of_lt h4 (by omega)
        · simp [Memory.read]
      · rename_i hne
        simp only [Memory.read, Ne.symm hne, if_false]
        exact ih h4

/-- A write inside the bank keeps the canonical form. -/
theorem Memory.wfFrom_write {lo : Nat} {m : Memory} (hm : Memory.wfFrom lo m = true) {a : Nat} (h1 : lo ≤ a)
    (h2 : a < bankSize) (v : Byte) : Memory.wfFrom lo (m.write a v) = true := by
  induction m generalizing lo with
  | nil =>
    simp only [Memory.write]; split
    · rfl
    · rename_i hv; exact Memory.wfFrom_cons.mpr ⟨h1, h2, hv, rfl⟩
  | cons c m ih =>
    obtain ⟨x, w⟩ := c
    obtain ⟨k1, k2, k3, k4⟩ := Memory.wfFrom_cons.mp hm
    simp only [Memory.write]
    split
    · rename_i hlt
      split
      · exact hm
      · rename_i hv
        exact Memory.wfFrom_cons.mpr ⟨h1, h2, hv, Memory.wfFrom_cons.mpr ⟨by omega, k2, k3, k4⟩⟩
    · split
      · rename_i hax; subst hax
        split
        · exact Memory.wfFrom_mono (by omega) k4
        · rename_i hv; exact Memory.wfFrom_cons.mpr ⟨h1, h2, hv, k4⟩
      · exact Memory.wfFrom_cons.mpr ⟨k1, k2, k3, ih k4 (by omega)⟩

theorem Memory.wf_write {m : Memory} (hm : m.wf = true) {a : Nat} (h : a < bankSize) (v : Byte) :
    (m.write a v).wf = true := Memory.wfFrom_write hm (Nat.zero_le a) h v

/-- Every cell address is inside the bank. -/
theorem cellAddress_lt (d : BitVec 4) (i : Byte) : cellAddress d i < bankSize := by
  have hd := d.isLt
  have hi := i.isLt
  simp only [cellAddress, bankSize, ndev, nreg]
  omega

/-- Two cells have one address only if they are the same cell. -/
theorem cellAddress_inj {d e : BitVec 4} {i j : Byte} (h : cellAddress d i = cellAddress e j) : d = e ∧ i = j := by
  have hi := i.isLt
  have hj := j.isLt
  simp only [cellAddress, nreg] at h
  exact ⟨BitVec.eq_of_toNat_eq (by omega), BitVec.eq_of_toNat_eq (by omega)⟩

/-- The bytes of a memory are as many as asked for. -/
@[simp] theorem Memory.bytesFrom_length (m : Memory) (a n : Nat) : (m.bytesFrom a n).length = n := by
  induction n generalizing a with
  | zero => rfl
  | succ n ih => simp [Memory.bytesFrom, ih]

/-- Byte `k` of the bytes from `a` on is the byte at `a + k`. -/
theorem Memory.bytesFrom_getD (m : Memory) (a n k : Nat) (h : k < n) (d : Byte) :
    (m.bytesFrom a n).getD k d = m.read (a + k) := by
  induction n generalizing a k with
  | zero => omega
  | succ n ih =>
    cases k with
    | zero => simp [Memory.bytesFrom]
    | succ k =>
      simp only [Memory.bytesFrom, List.getD_cons_succ]
      rw [ih (a + 1) k (by omega)]
      congr 1; omega

/-- The memory made from bytes lists nothing below its first address. -/
theorem Memory.read_ofBytesAt_lt (a : Nat) (bs : List Byte) {x : Nat} (h : x < a) :
    (Memory.ofBytesAt a bs).read x = Memory.unlisted := by
  induction bs generalizing a with
  | nil => rfl
  | cons b bs ih =>
    simp only [Memory.ofBytesAt]
    split
    · exact ih (a + 1) (by omega)
    · have hne : a ≠ x := by omega
      simp only [Memory.read, hne, if_false]
      exact ih (a + 1) (by omega)

/-- The memory made from bytes reads them back, and 0x00 past their end. -/
theorem Memory.read_ofBytesAt (a : Nat) (bs : List Byte) (k : Nat) :
    (Memory.ofBytesAt a bs).read (a + k) = bs.getD k Memory.unlisted := by
  induction bs generalizing a k with
  | nil => rfl
  | cons b bs ih =>
    have step : ∀ k, (Memory.ofBytesAt (a + 1) bs).read (a + (k + 1)) = bs.getD k Memory.unlisted := by
      intro k; rw [← ih (a + 1) k]; congr 1; omega
    cases k with
    | zero =>
      simp only [Memory.ofBytesAt, Nat.add_zero, List.getD_cons_zero]
      split
      · rename_i hb; rw [hb]; exact Memory.read_ofBytesAt_lt (a + 1) bs (by omega)
      · simp [Memory.read]
    | succ k =>
      simp only [Memory.ofBytesAt, List.getD_cons_succ]
      split
      · exact step k
      · have hne : a ≠ a + (k + 1) := by omega
        simp only [Memory.read, hne, if_false]
        exact step k

/-- The memory made from bytes that fit the bank is canonical. -/
theorem Memory.wfFrom_ofBytesAt {a : Nat} {bs : List Byte} (h : a + bs.length ≤ bankSize) :
    Memory.wfFrom a (Memory.ofBytesAt a bs) = true := by
  induction bs generalizing a with
  | nil => rfl
  | cons b bs ih =>
    simp only [List.length_cons] at h
    simp only [Memory.ofBytesAt]
    have hrest : Memory.wfFrom (a + 1) (Memory.ofBytesAt (a + 1) bs) = true := ih (by omega)
    split
    · exact Memory.wfFrom_mono (by omega) hrest
    · rename_i hb
      exact Memory.wfFrom_cons.mpr ⟨le_refl a, by omega, hb, hrest⟩

/-- A canonical memory reads 0x00 past the end of the bank. -/
theorem Memory.read_of_ge {lo : Nat} {m : Memory} (hm : Memory.wfFrom lo m = true) {a : Nat} (h : bankSize ≤ a) :
    m.read a = Memory.unlisted := by
  induction m generalizing lo with
  | nil => rfl
  | cons c m ih =>
    obtain ⟨-, h2, -, h4⟩ := Memory.wfFrom_cons.mp hm
    have hne : c.1 ≠ a := by omega
    simp only [Memory.read, hne, if_false]
    exact ih h4

/-- Canonical memories that read alike are the same data. -/
theorem Memory.ext_read {lo : Nat} {m n : Memory} (hm : Memory.wfFrom lo m = true) (hn : Memory.wfFrom lo n = true)
    (h : ∀ a, m.read a = n.read a) : m = n := by
  induction m generalizing lo n with
  | nil =>
    cases n with
    | nil => rfl
    | cons c n =>
      obtain ⟨-, -, k3, -⟩ := Memory.wfFrom_cons.mp hn
      exact absurd (by simpa [Memory.read] using (h c.1).symm) k3
  | cons c m ih =>
    obtain ⟨x, v⟩ := c
    obtain ⟨h1, h2, h3, h4⟩ := Memory.wfFrom_cons.mp hm
    cases n with
    | nil => exact absurd (by simpa [Memory.read] using h x) h3
    | cons c n =>
      obtain ⟨y, w⟩ := c
      obtain ⟨k1, k2, k3, k4⟩ := Memory.wfFrom_cons.mp hn
      have hxy : x = y := by
        rcases Nat.lt_trichotomy x y with hlt | heq | hgt
        · have := h x
          rw [Memory.read_of_lt (m := (y, w) :: n) (lo := y) (Memory.wfFrom_cons.mpr ⟨le_refl y, k2, k3, k4⟩) hlt] at this
          exact absurd (by simpa [Memory.read] using this) h3
        · exact heq
        · have := h y
          rw [Memory.read_of_lt (m := (x, v) :: m) (lo := x) (Memory.wfFrom_cons.mpr ⟨le_refl x, h2, h3, h4⟩) hgt] at this
          exact absurd (by simpa [Memory.read] using this.symm) k3
      subst hxy
      have hvw : v = w := by simpa [Memory.read] using h x
      subst hvw
      have htl : m = n := by
        apply ih h4 k4
        intro a
        by_cases ha : x = a
        · subst ha; rw [Memory.read_of_lt h4 (by omega), Memory.read_of_lt k4 (by omega)]
        · simpa [Memory.read, ha] using h a
      rw [htl]

/-- Writing the same byte twice is writing it once. -/
theorem Memory.write_write_same {m : Memory} (hm : m.wf = true) {a : Nat} (ha : a < bankSize) (v : Byte) :
    (m.write a v).write a v = m.write a v := by
  have h1 : (m.write a v).wf = true := Memory.wf_write hm ha v
  refine Memory.ext_read (lo := 0) (Memory.wf_write h1 ha v) h1 fun b => ?_
  by_cases hb : b = a
  · rw [hb]; exact (Memory.read_write_same h1 a v).trans (Memory.read_write_same hm a v).symm
  · exact Memory.read_write_ne _ v hb

end Sys2Proof.Machine
end

