-- ==== Sys2Proof/Laws/Registers.lean ====
section
/-!
SUPPORT. The Register File: the schema's ids, reading back a store, the merge law bit by bit.
-/
namespace Sys2Proof.Machine

@[simp] theorem regOfId_id (r : Reg) : regOfId r.id = some r := by
  rcases r with c | r
  · cases c <;> rfl
  · cases r <;> rfl

@[simp] theorem regOfId_const_id (c : ConstReg) : regOfId c.id = some (.const c) := regOfId_id (.const c)

@[simp] theorem regOfId_storage_id (r : StorageReg) : regOfId r.id = some (.storage r) := regOfId_id (.storage r)

/-- The ids of the schema are the sixteen ids of WellFormed (R14, R87). -/
theorem regOfId_isSome_eq (id : Byte) : (regOfId id).isSome = schemaIds.contains id := by
  revert id; decide +kernel

theorem regOfId_eq_none_iff (id : Byte) : regOfId id = none ↔ schemaIds.contains id = false := by
  rw [← regOfId_isSome_eq]; cases regOfId id <;> simp

/-- An id names at most one register. -/
theorem id_of_regOfId {id : Byte} {r : Reg} (h : regOfId id = some r) : r.id = id := by
  have key : ∀ id : Byte, ∀ r, regOfId id = some r → r.id = id := by
    intro id
    have : ((regOfId id).map Reg.id).getD id = id := by revert id; decide +kernel
    intro r hr; simpa [hr] using this
  exact key id r h

@[simp] theorem RegFile.get_set_same (rf : RegFile) (r : StorageReg) (v : BitVec r.width) : (rf.set r v).get r = v := by
  cases r <;> rfl

theorem RegFile.get_set_ne (rf : RegFile) {r q : StorageReg} (v : BitVec r.width) (h : q ≠ r) :
    (rf.set r v).get q = rf.get q := by
  cases r <;> cases q <;> first | exact absurd rfl h | rfl

@[simp] theorem RegFile.get_ofValues (f : (r : StorageReg) → BitVec r.width) (r : StorageReg) :
    (RegFile.ofValues f).get r = f r := by
  cases r <;> rfl

/-! ## The table SCHEMA of EXEMPLAR_NB -/

@[simp] theorem exemplarSchema_regOfId (id : Byte) : exemplarSchema.regOfId id = regOfId id := rfl
@[simp] theorem exemplarSchema_constValue (cfg : Config) (c : ConstReg) : exemplarSchema.constValue cfg c = c.value cfg := rfl
@[simp] theorem exemplarSchema_writeMask (r : StorageReg) : exemplarSchema.writeMask r = r.writeMask := rfl
@[simp] theorem exemplarSchema_resetValue (cfg : Config) (r : StorageReg) :
    exemplarSchema.resetValue cfg r = r.resetValue cfg := rfl
@[simp] theorem exemplarSchema_decodeRelevant (r : StorageReg) : exemplarSchema.decodeRelevant r = r.decodeRelevant := rfl

/-- The lock predicates of EXEMPLAR_NB by the bit each tests (R26). -/
theorem RegFile.locked_eq (rf : RegFile) (r : StorageReg) :
    rf.locked r = match r.lock with | none => false | some b => rf.lockBit b := by
  cases r <;> rfl

/-- Two register files with the same values are the same. -/
theorem RegFile.ext_get {p q : RegFile} (h : ∀ r, p.get r = q.get r) : p = q := by
  cases p; cases q
  simp only [RegFile.mk.injEq]
  exact ⟨h .apbase, h .lockctl, h .tom, h .pam1, h .pam2, h .pam3, h .pam4, h .pam5, h .pam6, h .pam7, h .smramc,
    h .esmramc, h .apsize, h .scratch⟩

/-- The merge law bit by bit (R104). -/
theorem mergeMasked_getLsbD {w : Nat} (old d m wm : BitVec w) (i : Nat) :
    (mergeMasked old d m wm).getLsbD i = if m.getLsbD i && wm.getLsbD i then d.getLsbD i else old.getLsbD i := by
  by_cases hi : i < w
  · simp only [mergeMasked, BitVec.getLsbD_or, BitVec.getLsbD_and, BitVec.getLsbD_not, hi, decide_true, Bool.true_and]
    cases m.getLsbD i <;> cases wm.getLsbD i <;> simp
  · simp [mergeMasked, BitVec.getLsbD_of_ge _ _ (Nat.le_of_not_lt hi)]

/-- A merge changes no bit outside the write-mask (R12). -/
theorem mergeMasked_reserved {w : Nat} (old d m wm : BitVec w) : mergeMasked old d m wm &&& ~~~wm = old &&& ~~~wm := by
  apply BitVec.eq_of_getLsbD_eq
  intro i hi
  simp only [BitVec.getLsbD_and, mergeMasked_getLsbD, BitVec.getLsbD_not, hi, decide_true, Bool.true_and]
  cases hw : wm.getLsbD i <;> simp

/-- The sanitised restore bit by bit (R182). -/
theorem sanitise_getLsbD {w : Nat} (raw wm reset : BitVec w) (i : Nat) :
    (sanitise raw wm reset).getLsbD i = if wm.getLsbD i then raw.getLsbD i else reset.getLsbD i := by
  by_cases hi : i < w
  · simp only [sanitise, BitVec.getLsbD_or, BitVec.getLsbD_and, BitVec.getLsbD_not, hi, decide_true, Bool.true_and]
    cases wm.getLsbD i <;> simp
  · simp [sanitise, BitVec.getLsbD_of_ge _ _ (Nat.le_of_not_lt hi)]

/-- A sanitised value has the reset value outside the write-mask (R12, R182). -/
theorem sanitise_reserved {w : Nat} (raw wm reset : BitVec w) : sanitise raw wm reset &&& ~~~wm = reset &&& ~~~wm := by
  apply BitVec.eq_of_getLsbD_eq
  intro i hi
  simp only [BitVec.getLsbD_and, sanitise_getLsbD, BitVec.getLsbD_not, hi, decide_true, Bool.true_and]
  cases hw : wm.getLsbD i <;> simp

/-- Sanitising a value that already has its reset bits outside the write-mask changes nothing. -/
theorem sanitise_of_reserved {w : Nat} {raw wm reset : BitVec w} (h : raw &&& ~~~wm = reset &&& ~~~wm) :
    sanitise raw wm reset = raw := by
  apply BitVec.eq_of_getLsbD_eq
  intro i hi
  have hb := congrArg (fun v : BitVec w => v.getLsbD i) h
  simp only [BitVec.getLsbD_and, BitVec.getLsbD_not, hi, decide_true, Bool.true_and] at hb
  rw [sanitise_getLsbD]
  cases hw : wm.getLsbD i <;> simp_all

end Sys2Proof.Machine
end

