-- ==== Sys2Proof/Laws/State.lean ====
section
/-!
SUPPORT. What each update of the state leaves in each field: one lemma per field per update, true by rfl, so that no
proof unfolds a record update.
-/
namespace Sys2Proof.Machine

@[simp] theorem exemplarNb_schema : exemplarNb.schema = exemplarSchema := rfl
@[simp] theorem exemplarNb_rules : exemplarNb.rules = exemplarRules := rfl
@[simp] theorem exemplarNb_tomb : exemplarNb.tomb = RegFile.tomb := rfl

variable {RF : Type}

@[simp] theorem State.respond_cfg (s : State RF) (r : Response) : (s.respond r).cfg = s.cfg := rfl
@[simp] theorem State.respond_rf (s : State RF) (r : Response) : (s.respond r).rf = s.rf := rfl
@[simp] theorem State.respond_cp (s : State RF) (r : Response) : (s.respond r).cp = s.cp := rfl
@[simp] theorem State.respond_ri (s : State RF) (r : Response) : (s.respond r).ri = s.ri := rfl
@[simp] theorem State.respond_installer (s : State RF) (r : Response) : (s.respond r).installer = s.installer := rfl
@[simp] theorem State.respond_responses (s : State RF) (r : Response) : (s.respond r).responses = s.responses ++ [r.pack] := rfl
@[simp] theorem State.respond_blobsOut (s : State RF) (r : Response) : (s.respond r).blobsOut = s.blobsOut := rfl
@[simp] theorem State.respond_requests (s : State RF) (r : Response) : (s.respond r).requests = s.requests := rfl
@[simp] theorem State.respond_blobPort (s : State RF) (r : Response) : (s.respond r).blobPort = s.blobPort := rfl

@[simp] theorem State.respondVal_cfg (s : State RF) (v : Word) : (s.respondVal v).cfg = s.cfg := rfl
@[simp] theorem State.respondVal_rf (s : State RF) (v : Word) : (s.respondVal v).rf = s.rf := rfl
@[simp] theorem State.respondVal_cp (s : State RF) (v : Word) : (s.respondVal v).cp = s.cp := rfl
@[simp] theorem State.respondVal_ri (s : State RF) (v : Word) : (s.respondVal v).ri = s.ri := rfl
@[simp] theorem State.respondVal_installer (s : State RF) (v : Word) : (s.respondVal v).installer = s.installer := rfl
@[simp] theorem State.respondVal_responses (s : State RF) (v : Word) : (s.respondVal v).responses = s.responses ++ [(plainResponse v).pack] := rfl
@[simp] theorem State.respondVal_blobsOut (s : State RF) (v : Word) : (s.respondVal v).blobsOut = s.blobsOut := rfl
@[simp] theorem State.respondVal_requests (s : State RF) (v : Word) : (s.respondVal v).requests = s.requests := rfl
@[simp] theorem State.respondVal_blobPort (s : State RF) (v : Word) : (s.respondVal v).blobPort = s.blobPort := rfl

@[simp] theorem State.putBlob_cfg (s : State RF) (b : Blob) : (s.putBlob b).cfg = s.cfg := rfl
@[simp] theorem State.putBlob_rf (s : State RF) (b : Blob) : (s.putBlob b).rf = s.rf := rfl
@[simp] theorem State.putBlob_cp (s : State RF) (b : Blob) : (s.putBlob b).cp = s.cp := rfl
@[simp] theorem State.putBlob_ri (s : State RF) (b : Blob) : (s.putBlob b).ri = s.ri := rfl
@[simp] theorem State.putBlob_installer (s : State RF) (b : Blob) : (s.putBlob b).installer = s.installer := rfl
@[simp] theorem State.putBlob_responses (s : State RF) (b : Blob) : (s.putBlob b).responses = s.responses := rfl
@[simp] theorem State.putBlob_blobsOut (s : State RF) (b : Blob) : (s.putBlob b).blobsOut = s.blobsOut ++ [b] := rfl
@[simp] theorem State.putBlob_requests (s : State RF) (b : Blob) : (s.putBlob b).requests = s.requests := rfl
@[simp] theorem State.putBlob_blobPort (s : State RF) (b : Blob) : (s.putBlob b).blobPort = s.blobPort := rfl

@[simp] theorem State.withRf_cfg (s : State RF) (rf : RF) : (s.withRf rf).cfg = s.cfg := rfl
@[simp] theorem State.withRf_rf (s : State RF) (rf : RF) : (s.withRf rf).rf = rf := rfl
@[simp] theorem State.withRf_cp (s : State RF) (rf : RF) : (s.withRf rf).cp = s.cp := rfl
@[simp] theorem State.withRf_ri (s : State RF) (rf : RF) : (s.withRf rf).ri = s.ri := rfl
@[simp] theorem State.withRf_installer (s : State RF) (rf : RF) : (s.withRf rf).installer = s.installer := rfl
@[simp] theorem State.withRf_responses (s : State RF) (rf : RF) : (s.withRf rf).responses = s.responses := rfl
@[simp] theorem State.withRf_blobsOut (s : State RF) (rf : RF) : (s.withRf rf).blobsOut = s.blobsOut := rfl
@[simp] theorem State.withRf_requests (s : State RF) (rf : RF) : (s.withRf rf).requests = s.requests := rfl
@[simp] theorem State.withRf_blobPort (s : State RF) (rf : RF) : (s.withRf rf).blobPort = s.blobPort := rfl

@[simp] theorem State.withCp_cfg (s : State RF) (cp : ConfigPort) : (s.withCp cp).cfg = s.cfg := rfl
@[simp] theorem State.withCp_rf (s : State RF) (cp : ConfigPort) : (s.withCp cp).rf = s.rf := rfl
@[simp] theorem State.withCp_cp (s : State RF) (cp : ConfigPort) : (s.withCp cp).cp = cp := rfl
@[simp] theorem State.withCp_ri (s : State RF) (cp : ConfigPort) : (s.withCp cp).ri = s.ri := rfl
@[simp] theorem State.withCp_installer (s : State RF) (cp : ConfigPort) : (s.withCp cp).installer = s.installer := rfl
@[simp] theorem State.withCp_responses (s : State RF) (cp : ConfigPort) : (s.withCp cp).responses = s.responses := rfl
@[simp] theorem State.withCp_blobsOut (s : State RF) (cp : ConfigPort) : (s.withCp cp).blobsOut = s.blobsOut := rfl
@[simp] theorem State.withCp_requests (s : State RF) (cp : ConfigPort) : (s.withCp cp).requests = s.requests := rfl
@[simp] theorem State.withCp_blobPort (s : State RF) (cp : ConfigPort) : (s.withCp cp).blobPort = s.blobPort := rfl

@[simp] theorem Tables.runResolver_cfg (tables : Tables) (s : State tables.schema.Values) :
    (tables.runResolver s).cfg = s.cfg := rfl
@[simp] theorem Tables.runResolver_rf (tables : Tables) (s : State tables.schema.Values) :
    (tables.runResolver s).rf = s.rf := rfl
@[simp] theorem Tables.runResolver_cp (tables : Tables) (s : State tables.schema.Values) :
    (tables.runResolver s).cp = s.cp := rfl
@[simp] theorem Tables.runResolver_ri (tables : Tables) (s : State tables.schema.Values) :
    (tables.runResolver s).ri = tables.resolve s.cfg s.rf := rfl
@[simp] theorem Tables.runResolver_installer (tables : Tables) (s : State tables.schema.Values) :
    (tables.runResolver s).installer = s.installer ++ installSequence (tables.resolve s.cfg s.rf) := rfl
@[simp] theorem Tables.runResolver_responses (tables : Tables) (s : State tables.schema.Values) :
    (tables.runResolver s).responses = s.responses := rfl
@[simp] theorem Tables.runResolver_blobsOut (tables : Tables) (s : State tables.schema.Values) :
    (tables.runResolver s).blobsOut = s.blobsOut := rfl
@[simp] theorem Tables.runResolver_requests (tables : Tables) (s : State tables.schema.Values) :
    (tables.runResolver s).requests = s.requests := rfl
@[simp] theorem Tables.runResolver_blobPort (tables : Tables) (s : State tables.schema.Values) :
    (tables.runResolver s).blobPort = s.blobPort := rfl

@[simp] theorem State.runResolver_cfg (s : State) : (s.runResolver).cfg = s.cfg := rfl
@[simp] theorem State.runResolver_rf (s : State) : (s.runResolver).rf = s.rf := rfl
@[simp] theorem State.runResolver_cp (s : State) : (s.runResolver).cp = s.cp := rfl
@[simp] theorem State.runResolver_ri (s : State) : (s.runResolver).ri = resolve s.cfg s.rf := rfl
@[simp] theorem State.runResolver_installer (s : State) : (s.runResolver).installer = s.installer ++ installSequence (resolve s.cfg s.rf) := rfl
@[simp] theorem State.runResolver_responses (s : State) : (s.runResolver).responses = s.responses := rfl
@[simp] theorem State.runResolver_blobsOut (s : State) : (s.runResolver).blobsOut = s.blobsOut := rfl
@[simp] theorem State.runResolver_requests (s : State) : (s.runResolver).requests = s.requests := rfl
@[simp] theorem State.runResolver_blobPort (s : State) : (s.runResolver).blobPort = s.blobPort := rfl

@[simp] theorem State.present_cfg (s : State RF) (w : Txn) : (s.present w).cfg = s.cfg := rfl
@[simp] theorem State.present_rf (s : State RF) (w : Txn) : (s.present w).rf = s.rf := rfl
@[simp] theorem State.present_cp (s : State RF) (w : Txn) : (s.present w).cp = s.cp := rfl
@[simp] theorem State.present_ri (s : State RF) (w : Txn) : (s.present w).ri = s.ri := rfl
@[simp] theorem State.present_installer (s : State RF) (w : Txn) : (s.present w).installer = s.installer := rfl
@[simp] theorem State.present_responses (s : State RF) (w : Txn) : (s.present w).responses = s.responses := rfl
@[simp] theorem State.present_blobsOut (s : State RF) (w : Txn) : (s.present w).blobsOut = s.blobsOut := rfl
@[simp] theorem State.present_requests (s : State RF) (w : Txn) : (s.present w).requests = ⟨w, s.blobPort⟩ :: s.requests := rfl
@[simp] theorem State.present_blobPort (s : State RF) (w : Txn) : (s.present w).blobPort = s.blobPort := rfl

@[simp] theorem State.accepted_of_cons {s : State RF} {r : Request} {rs : List Request} (h : s.requests = r :: rs) :
    s.accepted = { s with requests := rs, blobPort := r.blob } := by
  simp only [State.accepted, h]

@[simp] theorem State.accepted_of_nil {s : State RF} (h : s.requests = []) : s.accepted = s := by
  simp only [State.accepted, h]

@[simp] theorem State.nextTxn_of_cons {s : State RF} {r : Request} {rs : List Request} (h : s.requests = r :: rs) :
    s.nextTxn = r.txn := by
  simp only [State.nextTxn, h]

@[simp] theorem State.nextTxn_of_nil {s : State RF} (h : s.requests = []) : s.nextTxn = 0 := by
  simp only [State.nextTxn, h]

@[simp] theorem State.accepted_cfg (s : State RF) : s.accepted.cfg = s.cfg := by
  unfold State.accepted; split <;> rfl

@[simp] theorem State.accepted_rf (s : State RF) : s.accepted.rf = s.rf := by
  unfold State.accepted; split <;> rfl

@[simp] theorem State.accepted_cp (s : State RF) : s.accepted.cp = s.cp := by
  unfold State.accepted; split <;> rfl

@[simp] theorem State.accepted_ri (s : State RF) : s.accepted.ri = s.ri := by
  unfold State.accepted; split <;> rfl

@[simp] theorem State.accepted_installer (s : State RF) : s.accepted.installer = s.installer := by
  unfold State.accepted; split <;> rfl

@[simp] theorem State.accepted_responses (s : State RF) : s.accepted.responses = s.responses := by
  unfold State.accepted; split <;> rfl

@[simp] theorem State.accepted_blobsOut (s : State RF) : s.accepted.blobsOut = s.blobsOut := by
  unfold State.accepted; split <;> rfl

/-! ## The store to a register (R102, R105): on any tables, and on EXEMPLAR_NB -/

variable {tables : Tables}

@[simp] theorem Tables.commitReg_cfg (s : State tables.schema.Values) (r : tables.schema.StorageId)
    (v : BitVec (tables.schema.width r)) : (tables.commitReg s r v).cfg = s.cfg := by
  unfold Tables.commitReg; split <;> rfl

@[simp] theorem Tables.commitReg_cp (s : State tables.schema.Values) (r : tables.schema.StorageId)
    (v : BitVec (tables.schema.width r)) : (tables.commitReg s r v).cp = s.cp := by
  unfold Tables.commitReg; split <;> rfl

@[simp] theorem Tables.commitReg_responses (s : State tables.schema.Values) (r : tables.schema.StorageId)
    (v : BitVec (tables.schema.width r)) : (tables.commitReg s r v).responses = s.responses := by
  unfold Tables.commitReg; split <;> rfl

@[simp] theorem Tables.commitReg_blobsOut (s : State tables.schema.Values) (r : tables.schema.StorageId)
    (v : BitVec (tables.schema.width r)) : (tables.commitReg s r v).blobsOut = s.blobsOut := by
  unfold Tables.commitReg; split <;> rfl

@[simp] theorem Tables.commitReg_requests (s : State tables.schema.Values) (r : tables.schema.StorageId)
    (v : BitVec (tables.schema.width r)) : (tables.commitReg s r v).requests = s.requests := by
  unfold Tables.commitReg; split <;> rfl

@[simp] theorem Tables.commitReg_blobPort (s : State tables.schema.Values) (r : tables.schema.StorageId)
    (v : BitVec (tables.schema.width r)) : (tables.commitReg s r v).blobPort = s.blobPort := by
  unfold Tables.commitReg; split <;> rfl

@[simp] theorem Tables.commitReg_rf (s : State tables.schema.Values) (r : tables.schema.StorageId)
    (v : BitVec (tables.schema.width r)) : (tables.commitReg s r v).rf = tables.schema.set s.rf r v := by
  unfold Tables.commitReg; split <;> rfl

theorem Tables.commitReg_ri (s : State tables.schema.Values) (r : tables.schema.StorageId)
    (v : BitVec (tables.schema.width r)) : (tables.commitReg s r v).ri =
      if tables.schema.decodeRelevant r then tables.resolve s.cfg (tables.schema.set s.rf r v) else s.ri := by
  unfold Tables.commitReg; split <;> rfl

theorem Tables.commitReg_installer (s : State tables.schema.Values) (r : tables.schema.StorageId)
    (v : BitVec (tables.schema.width r)) : (tables.commitReg s r v).installer =
      s.installer ++
        if tables.schema.decodeRelevant r then installSequence (tables.resolve s.cfg (tables.schema.set s.rf r v))
        else [] := by
  unfold Tables.commitReg; split
  · rfl
  · simp

@[simp] theorem State.commitReg_cfg (s : State) (r : StorageReg) (v : BitVec r.width) :
    (s.commitReg r v).cfg = s.cfg := Tables.commitReg_cfg (tables := exemplarNb) s r v

@[simp] theorem State.commitReg_cp (s : State) (r : StorageReg) (v : BitVec r.width) :
    (s.commitReg r v).cp = s.cp := Tables.commitReg_cp (tables := exemplarNb) s r v

@[simp] theorem State.commitReg_responses (s : State) (r : StorageReg) (v : BitVec r.width) :
    (s.commitReg r v).responses = s.responses := Tables.commitReg_responses (tables := exemplarNb) s r v

@[simp] theorem State.commitReg_blobsOut (s : State) (r : StorageReg) (v : BitVec r.width) :
    (s.commitReg r v).blobsOut = s.blobsOut := Tables.commitReg_blobsOut (tables := exemplarNb) s r v

@[simp] theorem State.commitReg_requests (s : State) (r : StorageReg) (v : BitVec r.width) :
    (s.commitReg r v).requests = s.requests := Tables.commitReg_requests (tables := exemplarNb) s r v

@[simp] theorem State.commitReg_blobPort (s : State) (r : StorageReg) (v : BitVec r.width) :
    (s.commitReg r v).blobPort = s.blobPort := Tables.commitReg_blobPort (tables := exemplarNb) s r v

@[simp] theorem State.commitReg_rf (s : State) (r : StorageReg) (v : BitVec r.width) :
    (s.commitReg r v).rf = s.rf.set r v := Tables.commitReg_rf (tables := exemplarNb) s r v

/-- The store to a register of EXEMPLAR_NB (R102, R105). -/
theorem State.commitReg_eq (s : State) (r : StorageReg) (v : BitVec r.width) :
    s.commitReg r v = if r.decodeRelevant then (s.withRf (s.rf.set r v)).runResolver else s.withRf (s.rf.set r v) := rfl

theorem State.commitReg_ri (s : State) (r : StorageReg) (v : BitVec r.width) :
    (s.commitReg r v).ri = if r.decodeRelevant then resolve s.cfg (s.rf.set r v) else s.ri := by
  rw [State.commitReg_eq]; split <;> rfl

theorem State.commitReg_installer (s : State) (r : StorageReg) (v : BitVec r.width) :
    (s.commitReg r v).installer =
      s.installer ++ if r.decodeRelevant then installSequence (resolve s.cfg (s.rf.set r v)) else [] := by
  rw [State.commitReg_eq]; split
  · rfl
  · simp

end Sys2Proof.Machine
end

