-- ==== Sys2Proof/Laws/Ops.lean ====
section
/-!
SUPPORT. What each shared operation can do, once: a store to a register, a port write, a restore, the canonical form of
the bank through all of them, and the inversion of each meaning.
-/
namespace Sys2Proof.Machine

/-! ## The configuration port -/

/-- A port write in the state LOCKED: only the unlock key on the index port does anything (R165 rows T1 to T3). -/
theorem ConfigPort.write_locked {cfg : Config} {cp : ConfigPort} (h : cp.locked = true) (p : Port) (v : Byte) :
    cp.write cfg p v = if p = .index ∧ v = cfg.unlockByte then cp.key cfg false v else cp := by
  cases p <;> simp [ConfigPort.write, ConfigPort.writeIndex, ConfigPort.writeData, h]

/-- An index-port write in the state UNLOCKED (R165 rows T6, T7). -/
theorem ConfigPort.write_index_unlocked {cfg : Config} {cp : ConfigPort} (h : cp.locked = false) (v : Byte) :
    cp.write cfg .index v = if v = cfg.lockByte then cp.key cfg true v else { cp with idx := v } := by
  simp [ConfigPort.write, ConfigPort.writeIndex, h]

/-- A data-port write in the state UNLOCKED (R165 rows T8 to T10). -/
theorem ConfigPort.write_data_unlocked {cfg : Config} {cp : ConfigPort} (h : cp.locked = false) (v : Byte) :
    cp.write cfg .data v =
      { cp with
        bank := cp.bank.write cp.cell v
        sel := if cp.idx ≤ sharedMax ∧ cp.idx = cfg.devselIndex then v.extractLsb' 0 4 else cp.sel } := by
  simp [ConfigPort.write, ConfigPort.writeData, h]

/-- Every cell a data access reaches is inside the bank. -/
theorem ConfigPort.cell_lt (cp : ConfigPort) : cp.cell < bankSize := cellAddress_lt _ _

/-- Every port write keeps the canonical form of the bank. -/
theorem ConfigPort.write_bank_wf {cfg : Config} {cp : ConfigPort} (h : cp.bank.wf = true) (p : Port) (v : Byte) :
    (cp.write cfg p v).bank.wf = true := by
  cases hl : cp.locked
  · cases p
    · rw [ConfigPort.write_index_unlocked hl]; split <;> exact h
    · rw [ConfigPort.write_data_unlocked hl]; exact Memory.wf_write h cp.cell_lt v
  · rw [ConfigPort.write_locked hl]; split <;> exact h

/-- The bank after reset has the canonical form when the parameters are valid. -/
theorem resetConfigPort_bank_wf {cfg : Config} (h : validConfig cfg = true) : (resetConfigPort cfg).bank.wf = true := by
  simp only [validConfig, Bool.and_eq_true] at h
  exact h.2

/-- The bank a RESTORE loads has the canonical form. -/
theorem restoredCp_bank_wf {b : Blob} (h : b.length = blobLength) : (restoredCp b).bank.wf = true := by
  apply Memory.wfFrom_ofBytesAt
  simp only [List.length_drop, h, blobLength, blobLocked, bankSize, ndev, nreg]
  omega

/-! ## Little-endian bytes -/

@[simp] theorem littleEndian_length {w : Nat} (v : BitVec w) (n : Nat) : (littleEndian v n).length = n := by
  induction n generalizing v with
  | zero => rfl
  | succ n ih => simp [littleEndian, ih]

/-- Byte `k` of the little-endian bytes is lane `k` of the value (R56). -/
theorem littleEndian_getD {w : Nat} (v : BitVec w) (n k : Nat) (h : k < n) (d : Byte) :
    (littleEndian v n).getD k d = v.extractLsb' (8 * k) 8 := by
  induction n generalizing v k with
  | zero => omega
  | succ n ih =>
    cases k with
    | zero =>
      simp only [littleEndian, List.getD_cons_zero]
      apply BitVec.eq_of_toNat_eq; simp
    | succ k =>
      simp only [littleEndian, List.getD_cons_succ]
      rw [ih (v >>> 8) k (by omega)]
      apply BitVec.eq_of_toNat_eq
      simp only [BitVec.extractLsb'_toNat, BitVec.toNat_ushiftRight, ← Nat.shiftRight_add]
      congr 2; omega

/-- The little-endian bytes of a value give the value back, up to the bytes taken. -/
theorem ofLittleEndian_littleEndian {w : Nat} (v : BitVec w) (n : Nat) :
    ofLittleEndian (littleEndian v n) = v.toNat % 256 ^ n := by
  induction n generalizing v with
  | zero => simp [littleEndian, ofLittleEndian, Nat.mod_one]
  | succ n ih =>
    have h8 : (2 : Nat) ^ 8 = 256 := rfl
    simp only [littleEndian, ofLittleEndian, ih, BitVec.toNat_setWidth, BitVec.toNat_ushiftRight,
      Nat.shiftRight_eq_div_pow, h8]
    rw [pow_succ', Nat.mod_mul]

/-! ## Responses -/

/-- The word of a response other than LOOKUP's (R84). -/
theorem plainResponse_pack (v : Word) : (plainResponse v).pack = (0 : BitVec 8) ++ v :=
  congrArg (· ++ v) (by decide : (0#3 ++ 0#2 ++ 0#3 : BitVec (3 + 2 + 3)) = 0#8)

/-! ## Inversion of the meanings: if exec answers a next state, it is this one -/

section AnyTables

variable {tables : Tables} {s t : State tables.schema.Values} {id : Byte} {data mask : Word}

/-- A CFGRD that answers named a register of the schema. -/
theorem Tables.cfgrd_eq_next :
    tables.cfgrd id s = .next t ↔
      ∃ r, tables.schema.regOfId id = some r ∧ t = s.respondVal (tables.schema.readReg s.cfg s.rf r) := by
  unfold Tables.cfgrd
  cases tables.schema.regOfId id with
  | none => simp
  | some r =>
    simp only [Host.Outcome.next.injEq, Option.some.injEq, exists_eq_left']
    exact eq_comm

/-- A CFGWR that answers was discarded, or stored the merged value. -/
theorem Tables.cfgwr_eq_next :
    tables.cfgwr id data mask s = .next t ↔
      (∃ c, tables.schema.regOfId id = some (.const c) ∧ t = s) ∨
      (∃ r, tables.schema.regOfId id = some (.storage r) ∧ tables.schema.locked s.rf r = true ∧ t = s) ∨
      (∃ r, tables.schema.regOfId id = some (.storage r) ∧ tables.schema.locked s.rf r = false ∧
        t = tables.commitReg s r (tables.schema.merged s.rf r data mask)) := by
  unfold Tables.cfgwr
  rcases tables.schema.regOfId id with _ | c | r
  · simp
  · simp only [Host.Outcome.next.injEq, Option.some.injEq, Reg.const.injEq, reduceCtorEq, false_and, exists_false,
      or_false, exists_eq_left']
    exact eq_comm
  · simp only [Option.some.injEq, Reg.storage.injEq, reduceCtorEq, false_and, exists_false, false_or, exists_eq_left']
    cases h : tables.schema.locked s.rf r
    · simp only [Bool.false_eq_true, if_false, false_and, false_or, true_and, Host.Outcome.next.injEq]
      exact eq_comm
    · simp only [if_true, true_and, reduceCtorEq, false_and, or_false, Host.Outcome.next.injEq]
      exact eq_comm

/-- A RESTORE that answers found a blob of the right length. -/
theorem Tables.restore_eq_next :
    tables.restore s = .next t ↔ s.blobPort.length = tables.schema.blobLength ∧
      t = tables.runResolver ((s.withRf (tables.schema.restoredValues s.cfg s.blobPort)).withCp
        (restoredPort s.blobPort tables.schema.blobRegBytes)) := by
  unfold Tables.restore
  by_cases h : s.blobPort.length = tables.schema.blobLength
  · rw [if_pos h]
    exact ⟨fun e => ⟨h, (Host.Outcome.next.inj e).symm⟩, fun e => congrArg _ e.2.symm⟩
  · rw [if_neg h]
    exact ⟨(nomatch ·), fun e => absurd e.1 h⟩

end AnyTables

/-- A CFGRD of EXEMPLAR_NB that answers named one of its registers. -/
theorem execCfgrd_eq_next {id : Byte} {s t : State} :
    execCfgrd id s = .next t ↔ ∃ r, regOfId id = some r ∧ t = s.respondVal (s.rf.readReg s.cfg r) :=
  Tables.cfgrd_eq_next (tables := exemplarNb)

/-- A CFGWR of EXEMPLAR_NB that answers was discarded, or stored the merged value. -/
theorem execCfgwr_eq_next {id : Byte} {data mask : Word} {s t : State} :
    execCfgwr id data mask s = .next t ↔
      (∃ c, regOfId id = some (.const c) ∧ t = s) ∨
      (∃ r, regOfId id = some (.storage r) ∧ s.rf.locked r = true ∧ t = s) ∨
      (∃ r, regOfId id = some (.storage r) ∧ s.rf.locked r = false ∧ t = s.commitReg r (s.rf.merged r data mask)) :=
  Tables.cfgwr_eq_next (tables := exemplarNb)

/-- A RESTORE of EXEMPLAR_NB that answers found a blob of 4120 bytes. -/
theorem execRestore_eq_next {s t : State} :
    execRestore s = .next t ↔ s.blobPort.length = blobLength ∧
      t = ((s.withRf (restoredRf s.cfg s.blobPort)).withCp (restoredCp s.blobPort)).runResolver :=
  Tables.restore_eq_next (tables := exemplarNb)

end Sys2Proof.Machine
end

