-- ==== Sys2Proof/Laws/Blob.lean ====
section
/-!
SUPPORT. The blob: its length, and that restoring gives back the registers and the port it was made from, on any lawful
schema (43_host_ops.md R182, R183).
-/
namespace Sys2Proof.Machine

variable {schema : Schema}

/-- A register of width W takes W/8 bytes. -/
theorem Schema.blobSize_spec (h : schema.Lawful) (r : schema.StorageId) : 8 * schema.blobSize r = schema.width r := by
  unfold Schema.blobSize
  rcases h.widths r with e | e | e <;> omega

/-- The bytes of the registers in a blob are as many as the schema says. -/
theorem Schema.regBytes_length (rf : schema.Values) (l : List schema.StorageId) :
    (l.flatMap fun r => littleEndian (schema.get rf r) (schema.blobSize r)).length = (l.map schema.blobSize).sum := by
  induction l with
  | nil => rfl
  | cons r l ih => simp [ih]

/-- Every blob of a schema has its length (R183). -/
theorem Schema.snapshotBlob_length (rf : schema.Values) (cp : ConfigPort) :
    (schema.snapshotBlob rf cp).length = schema.blobLength := by
  simp only [Schema.snapshotBlob, Schema.blobLength, Schema.blobRegBytes, List.length_append, Schema.regBytes_length,
    Memory.bytesFrom_length, List.length_cons, List.length_nil]

/-- A register's bytes in a blob give its value back (R56, R183). -/
theorem Schema.blobReg_snapshotBlob (h : schema.Lawful) (rf : schema.Values) (cp : ConfigPort) (r : schema.StorageId) :
    schema.blobReg (schema.snapshotBlob rf cp) r = schema.get rf r := by
  obtain ⟨before, after, e⟩ := List.append_of_mem (h.allStored r)
  have hd : (schema.snapshotBlob rf cp).drop (schema.blobOffset r) =
      littleEndian (schema.get rf r) (schema.blobSize r) ++
        (after.flatMap (fun q => littleEndian (schema.get rf q) (schema.blobSize q)) ++
          ([if cp.locked then 0x01 else 0x00, cp.sel.setWidth 8, cp.idx] ++ cp.bank.bytesFrom 0 bankSize)) := by
    rw [h.offsets before after r e, ← Schema.regBytes_length rf before]
    simp only [Schema.snapshotBlob, e, List.flatMap_append, List.flatMap_cons, List.append_assoc, List.drop_left]
  have ht := List.take_left (l₁ := littleEndian (schema.get rf r) (schema.blobSize r))
    (l₂ := after.flatMap (fun q => littleEndian (schema.get rf q) (schema.blobSize q)) ++
          ([if cp.locked then 0x01 else 0x00, cp.sel.setWidth 8, cp.idx] ++ cp.bank.bytesFrom 0 bankSize))
  rw [littleEndian_length] at ht
  apply BitVec.eq_of_toNat_eq
  rw [Schema.blobReg, hd, ht, ofLittleEndian_littleEndian, BitVec.toNat_ofNat]
  have h256 : 256 ^ schema.blobSize r = 2 ^ schema.width r := by
    rw [← Schema.blobSize_spec h r, pow_mul]; rfl
  rw [h256, Nat.mod_mod]
  exact Nat.mod_eq_of_lt (schema.get rf r).isLt

/-- The bank of a blob gives the canonical bank back (R183). -/
theorem Memory.ofBytesAt_bytesFrom {m : Memory} (h : m.wf = true) : Memory.ofBytesAt 0 (m.bytesFrom 0 bankSize) = m := by
  refine Memory.ext_read (lo := 0) (Memory.wfFrom_ofBytesAt (by simp)) h fun a => ?_
  have e := Memory.read_ofBytesAt 0 (m.bytesFrom 0 bankSize) a
  rw [Nat.zero_add] at e
  rw [e]
  by_cases ha : a < bankSize
  · rw [Memory.bytesFrom_getD _ _ _ _ ha, Nat.zero_add]
  · rw [Memory.read_of_ge h (Nat.le_of_not_lt ha), List.getD_eq_default]
    simpa using ha

/-- The port of a blob is the port it was made from, when its bank is canonical (R183). -/
theorem restoredPort_snapshotBlob (rf : schema.Values) {cp : ConfigPort} (h : cp.bank.wf = true) :
    restoredPort (schema.snapshotBlob rf cp) schema.blobRegBytes = cp := by
  have hd : ∀ n, (schema.snapshotBlob rf cp).drop (schema.blobRegBytes + n) =
      ([if cp.locked then 0x01 else 0x00, cp.sel.setWidth 8, cp.idx] ++ cp.bank.bytesFrom 0 bankSize).drop n := by
    intro n
    rw [Schema.blobRegBytes, ← Schema.regBytes_length rf, ← List.drop_drop]
    simp only [Schema.snapshotBlob, List.append_assoc, List.drop_left]
  have hb : ∀ n, blobByte (schema.snapshotBlob rf cp) (schema.blobRegBytes + n) =
      ([if cp.locked then 0x01 else 0x00, cp.sel.setWidth 8, cp.idx] ++ cp.bank.bytesFrom 0 bankSize).getD n 0x00 := by
    intro n
    have := congrArg (fun l => l.getD 0 (0x00 : Byte)) (hd n)
    simpa [blobByte, List.getD_eq_getElem?_getD] using this
  obtain ⟨locked, sel, idx, bank⟩ := cp
  have h0 := hb 0
  simp only [Nat.add_zero] at h0
  simp only [restoredPort, h0, hb 1, hb 2, hd 3]
  simp only [List.cons_append, List.nil_append, List.getD_cons_zero, List.getD_cons_succ, List.drop_succ_cons, List.drop_zero,
    Memory.ofBytesAt_bytesFrom h]
  congr 1
  · cases locked <;> rfl
  · apply BitVec.eq_of_toNat_eq; simp; omega

/-- The registers a RESTORE loads from a blob are those it was made from, when their reserved bits hold their reset value
(R182). -/
theorem Schema.restoredValues_snapshotBlob (h : schema.Lawful) {cfg : Config} {rf : schema.Values} (cp : ConfigPort)
    (hr : ∀ r, schema.get rf r &&& ~~~schema.writeMask r = schema.resetValue cfg r &&& ~~~schema.writeMask r) :
    schema.restoredValues cfg (schema.snapshotBlob rf cp) = rf := by
  apply h.ext
  intro r
  rw [Schema.restoredValues, h.get_ofValues, Schema.blobReg_snapshotBlob h, sanitise_of_reserved (hr r)]

end Sys2Proof.Machine
end

