-- ==== Sys2Proof/Laws/Construction.lean ====
section
/-!
SUPPORT. The machine of the model is the core built from EXEMPLAR_NB (00_scope.md R5), and its lock predicates are those
R26 tabulates.
-/
namespace Sys2Proof.Machine

theorem exec_exemplarNb (i : Instr) (s : State) : exemplarNb.exec i s = exec i s := by cases i <;> rfl

theorem step_exemplarNb (s : State) : exemplarNb.step s = step s := by
  unfold Tables.step step
  cases decode s.nextTxn <;> simp only [exec_exemplarNb]

/-- The predicate of each register tests the bit that R26 tabulates for it. -/
theorem RegFile.locked_eq_lockBitSet (rf : RegFile) (r : StorageReg) : rf.locked r = rf.lockBitSet r := by cases r <;> rfl

end Sys2Proof.Machine
end

