-- ==== Sys2Proof/Laws/Decode.lean ====
section
/-!
SUPPORT. The fields of a packed transaction word are what was packed (30_encoding.md R81).
-/
namespace Sys2Proof

@[simp] theorem packTxn_op (op : BitVec 4) (a : Byte) (m d : Word) : Txn.op (packTxn op a m d) = op := by
  apply BitVec.eq_of_getLsbD_eq
  intro i hi
  have h1 : ¬ 76 + i < 32 := by omega
  have h2 : ¬ 76 + i - 32 < 32 := by omega
  have h3 : ¬ 76 + i - 32 - 32 < 8 := by omega
  have h4 : ¬ 76 + i - 32 - 32 - 8 < 4 := by omega
  have h5 : 76 + i - 32 - 32 - 8 - 4 = i := by omega
  simp only [Txn.op, packTxn, BitVec.getLsbD_extractLsb', BitVec.getLsbD_append, hi, h1, h2, h3, h4, h5, decide_true,
    Bool.true_and, if_false]

@[simp] theorem packTxn_z (op : BitVec 4) (a : Byte) (m d : Word) : Txn.z (packTxn op a m d) = 0 := by
  apply BitVec.eq_of_getLsbD_eq
  intro i hi
  have h1 : ¬ 72 + i < 32 := by omega
  have h2 : ¬ 72 + i - 32 < 32 := by omega
  have h3 : ¬ 72 + i - 32 - 32 < 8 := by omega
  have h4 : 72 + i - 32 - 32 - 8 < 4 := by omega
  simp only [Txn.z, packTxn, BitVec.getLsbD_extractLsb', BitVec.getLsbD_append, hi, h1, h2, h3, h4, decide_true,
    Bool.true_and, if_false, if_true, BitVec.ofNat_eq_ofNat, BitVec.getLsbD_zero]

@[simp] theorem packTxn_a (op : BitVec 4) (a : Byte) (m d : Word) : Txn.a (packTxn op a m d) = a := by
  apply BitVec.eq_of_getLsbD_eq
  intro i hi
  have h1 : ¬ 64 + i < 32 := by omega
  have h2 : ¬ 64 + i - 32 < 32 := by omega
  have h3 : 64 + i - 32 - 32 = i := by omega
  simp only [Txn.a, packTxn, BitVec.getLsbD_extractLsb', BitVec.getLsbD_append, hi, h1, h2, h3, decide_true,
    Bool.true_and, if_false, if_true]

@[simp] theorem packTxn_m (op : BitVec 4) (a : Byte) (m d : Word) : Txn.m (packTxn op a m d) = m := by
  apply BitVec.eq_of_getLsbD_eq
  intro i hi
  have h1 : ¬ 32 + i < 32 := by omega
  have h2 : 32 + i - 32 = i := by omega
  simp only [Txn.m, packTxn, BitVec.getLsbD_extractLsb', BitVec.getLsbD_append, hi, h1, h2, decide_true,
    Bool.true_and, if_false, if_true]

@[simp] theorem packTxn_d (op : BitVec 4) (a : Byte) (m d : Word) : Txn.d (packTxn op a m d) = d := by
  apply BitVec.eq_of_getLsbD_eq
  intro i hi
  have h1 : 0 + i = i := by omega
  simp only [Txn.d, packTxn, BitVec.getLsbD_extractLsb', BitVec.getLsbD_append, h1, hi, decide_true, Bool.true_and, if_true]

end Sys2Proof
end

