-- ==== Sys2Proof/Laws/PerInstr.lean ====
section
/-!
SUPPORT. Statements made once per transaction. TableMatch: the word of a transaction has the bits of its row of
spec/opcode_table.json under the row's mask 0xFF000000000000000000, which selects OP and Z (30_encoding.md R82).
-/
namespace Sys2Proof.Laws.TableMatch

/-- OP of the word of `i` is the row's code, and Z is 0. -/
def Statement (i : Instr) : Prop := Txn.op (encode i) = i.op ∧ Txn.z (encode i) = 0

theorem nop : Statement .nop := ⟨packTxn_op .., packTxn_z ..⟩

theorem cfgrd (id : Byte) : Statement (.cfgrd id) := ⟨packTxn_op .., packTxn_z ..⟩

theorem cfgwr (id : Byte) (data mask : Word) : Statement (.cfgwr id data mask) := ⟨packTxn_op .., packTxn_z ..⟩

theorem iord (port : Port) : Statement (.iord port) := ⟨packTxn_op .., packTxn_z ..⟩

theorem iowr (port : Port) (v : Byte) : Statement (.iowr port v) := ⟨packTxn_op .., packTxn_z ..⟩

theorem lookup (dir : Dir) (addr : Word) : Statement (.lookup dir addr) := ⟨packTxn_op .., packTxn_z ..⟩

theorem reset : Statement .reset := ⟨packTxn_op .., packTxn_z ..⟩

theorem snapshot : Statement .snapshot := ⟨packTxn_op .., packTxn_z ..⟩

theorem restore : Statement .restore := ⟨packTxn_op .., packTxn_z ..⟩

end Sys2Proof.Laws.TableMatch
end

