-- ==== Sys2Proof/Laws/Resolver.lean ====
section
/-!
SUPPORT. What each part of the resolver does, once each: cutting a piece, painting over the working map, the clamp, the
sort, the emission (41_resolver.md R124, R125, R128).
-/
namespace Sys2Proof.Machine

variable {RF : Type}

/-- The last address is the 0xFFFFFFFF of R53: ADDR_WIDTH has one value. -/
@[simp] theorem addrMax_eq (cfg : Config) : addrMax cfg = 0xFFFFFFFF := by
  unfold addrMax; cases cfg.addrWidth; rfl

/-- A piece covers an address. -/
def Piece.covers (p : Piece RF) (a : Nat) : Prop := p.s ≤ a ∧ a ≤ p.e

/-- Two pieces that can carry the same name and contribution. -/
def Piece.samePaint (p q : Piece RF) : Prop := p.rule = q.rule ∧ p.paint = q.paint

/-- No address in both pieces. -/
def Piece.disjoint (p q : Piece RF) : Prop := p.e < q.s ∨ q.e < p.s

/-- A piece is a range of the decoded space at or above the start its rule asked for. -/
def Piece.good (p : Piece RF) : Prop := p.s ≤ p.e ∧ p.e ≤ 0xFFFFFFFF ∧ p.paint.start ≤ p.s

/-- What a cut leaves of a piece: parts of it, outside the range painted, with its rule and contribution. -/
theorem Piece.mem_cut {s e : Nat} {p q : Piece RF} (hp : p.s ≤ p.e) (h : q ∈ p.cut s e) :
    q.samePaint p ∧ p.s ≤ q.s ∧ q.s ≤ q.e ∧ q.e ≤ p.e ∧ (q.e < s ∨ e < q.s) := by
  unfold Piece.cut at h
  split at h
  · rename_i hm
    rw [List.mem_append] at h
    rcases h with h | h
    · split at h
      · rename_i hlt
        rw [List.mem_singleton] at h; subst h
        exact ⟨⟨rfl, rfl⟩, le_refl _, by simp only; omega, by simp only; omega, .inl (by simp only; omega)⟩
      · simp at h
    · split at h
      · rename_i hlt
        rw [List.mem_singleton] at h; subst h
        exact ⟨⟨rfl, rfl⟩, by simp only; omega, by simp only; omega, le_refl _, .inr (by simp only; omega)⟩
      · simp at h
  · rw [List.mem_singleton] at h; subst h
    exact ⟨⟨rfl, rfl⟩, le_refl _, hp, le_refl _, by omega⟩

/-- The addresses a piece keeps are those outside the range painted (R124). -/
theorem Piece.cut_covers (s e a : Nat) (p : Piece RF) :
    (∃ q ∈ p.cut s e, q.covers a) ↔ p.covers a ∧ ¬ (s ≤ a ∧ a ≤ e) := by
  unfold Piece.cut Piece.covers
  split
  · constructor
    · rintro ⟨q, hq, h⟩
      rw [List.mem_append] at hq
      rcases hq with hq | hq
      · split at hq
        · rw [List.mem_singleton] at hq; subst hq; simp only at h; omega
        · simp at hq
      · split at hq
        · rw [List.mem_singleton] at hq; subst hq; simp only at h; omega
        · simp at hq
    · rintro ⟨⟨h1, h2⟩, h3⟩
      by_cases hs : a < s
      · refine ⟨{ p with e := s - 1 }, List.mem_append_left _ ?_, h1, by simp only; omega⟩
        rw [if_pos (by omega)]; exact List.mem_singleton.mpr rfl
      · refine ⟨{ p with s := e + 1 }, List.mem_append_right _ ?_, by simp only; omega, h2⟩
        rw [if_pos (by omega)]; exact List.mem_singleton.mpr rfl
  · constructor
    · rintro ⟨q, hq, h⟩
      rw [List.mem_singleton] at hq; subst hq
      exact ⟨h, by omega⟩
    · rintro ⟨h, -⟩
      exact ⟨p, List.mem_singleton.mpr rfl, h⟩

/-- The parts of one cut do not meet each other. -/
theorem Piece.cut_pairwise (s e : Nat) (p : Piece RF) (h : s ≤ e) : (p.cut s e).Pairwise Piece.disjoint := by
  unfold Piece.cut
  split
  · split <;> split <;> simp [Piece.disjoint]
    omega
  · exact List.pairwise_singleton _ _

/-- Painting over the working map: the newest piece answers for its own range, the others keep the rest (R124). -/
theorem paintOver_covers (wk : List (Piece RF)) (p : Piece RF) (a : Nat) (k : DecodeRule RF) (c : Contribution) (hwk : ∀ q ∈ wk, q.s ≤ q.e) :
    (∃ q ∈ paintOver wk p, q.covers a ∧ q.rule = k ∧ q.paint = c) ↔
      (p.covers a ∧ p.rule = k ∧ p.paint = c) ∨ (¬ p.covers a ∧ ∃ q ∈ wk, q.covers a ∧ q.rule = k ∧ q.paint = c) := by
  unfold paintOver
  constructor
  · rintro ⟨q, hq, h⟩
    rw [List.mem_append, List.mem_singleton, List.mem_flatMap] at hq
    rcases hq with ⟨r, hr, hq⟩ | rfl
    · obtain ⟨⟨e1, e2⟩, -⟩ := Piece.mem_cut (hwk r hr) hq
      have := (Piece.cut_covers p.s p.e a r).mp ⟨q, hq, h.1⟩
      exact .inr ⟨this.2, r, hr, this.1, e1 ▸ h.2.1, e2 ▸ h.2.2⟩
    · exact .inl h
  · rintro (h | ⟨hn, r, hr, h1, h2, h3⟩)
    · exact ⟨p, by simp, h⟩
    · obtain ⟨q, hq, hc⟩ := (Piece.cut_covers p.s p.e a r).mpr ⟨h1, hn⟩
      obtain ⟨⟨e1, e2⟩, -⟩ := Piece.mem_cut (hwk r hr) hq
      exact ⟨q, by rw [List.mem_append, List.mem_flatMap]; exact .inl ⟨r, hr, hq⟩, hc, e1.trans h2, e2.trans h3⟩

/-- Painting keeps the pieces good. -/
theorem paintOver_good {wk : List (Piece RF)} {p : Piece RF} (hwk : ∀ q ∈ wk, q.good) (hp : p.good) :
    ∀ q ∈ paintOver wk p, q.good := by
  intro q hq
  unfold paintOver at hq
  rw [List.mem_append, List.mem_singleton, List.mem_flatMap] at hq
  rcases hq with ⟨r, hr, hq⟩ | rfl
  · obtain ⟨g1, g2, g3⟩ := hwk r hr
    obtain ⟨⟨-, e2⟩, k1, k2, k3, -⟩ := Piece.mem_cut g1 hq
    exact ⟨k2, k3.trans g2, by rw [e2]; exact g3.trans k1⟩
  · exact hp

/-- Painting keeps the pieces apart: after step 2 every address belongs to at most one piece (R124). -/
theorem paintOver_pairwise {wk : List (Piece RF)} {p : Piece RF} (hwk : ∀ q ∈ wk, q.good) (hp : p.good)
    (h : wk.Pairwise Piece.disjoint) : (paintOver wk p).Pairwise Piece.disjoint := by
  unfold paintOver
  rw [List.pairwise_append]
  refine ⟨?_, List.pairwise_singleton _ _, ?_⟩
  · rw [List.pairwise_flatMap]
    refine ⟨fun q _ => Piece.cut_pairwise _ _ q hp.1, ?_⟩
    refine h.imp_of_mem ?_
    intro q r hq hr hd x hx y hy
    obtain ⟨-, a1, -, a3, -⟩ := Piece.mem_cut (hwk q hq).1 hx
    obtain ⟨-, b1, -, b3, -⟩ := Piece.mem_cut (hwk r hr).1 hy
    unfold Piece.disjoint at hd ⊢
    omega
  · intro x hx y hy
    rw [List.mem_singleton] at hy; subst hy
    rw [List.mem_flatMap] at hx
    obtain ⟨q, hq, hx⟩ := hx
    obtain ⟨-, -, -, -, h5⟩ := Piece.mem_cut (hwk q hq).1 hx
    unfold Piece.disjoint
    omega

/-- Pieces of one rule do not touch: something was painted between them (R128). -/
def Piece.apart (p q : Piece RF) : Prop := p.rule.index = q.rule.index → p.e + 1 ≠ q.s ∧ q.e + 1 ≠ p.s

/-- The parts of one cut do not touch (R128). -/
theorem Piece.cut_apart (s e : Nat) (p : Piece RF) (h : s ≤ e) : (p.cut s e).Pairwise Piece.apart := by
  unfold Piece.cut
  split
  · split <;> split <;> simp [Piece.apart]
    omega
  · exact List.pairwise_singleton _ _

/-- Where a part of a piece starts and ends after a cut: at the piece's own bound or at the painted range's (R124). -/
theorem Piece.mem_cut_bounds {s e : Nat} {p q : Piece RF} (h : q ∈ p.cut s e) :
    (q.s = p.s ∨ (q.s = e + 1 ∧ p.s ≤ e ∧ e < p.e)) ∧ (q.e = p.e ∨ (q.e = s - 1 ∧ p.s < s ∧ s ≤ p.e)) := by
  unfold Piece.cut at h
  split at h
  · rename_i hm
    rw [List.mem_append] at h
    rcases h with h | h <;> split at h
    · rename_i hlt
      rw [List.mem_singleton] at h; subst h
      exact ⟨.inl rfl, .inr ⟨rfl, hlt, hm.2⟩⟩
    · simp at h
    · rename_i hlt
      rw [List.mem_singleton] at h; subst h
      exact ⟨.inr ⟨rfl, hm.1, hlt⟩, .inl rfl⟩
    · simp at h
  · rw [List.mem_singleton] at h; subst h
    exact ⟨.inl rfl, .inl rfl⟩

/-- Painting for a rule that has painted nothing before keeps the pieces of each rule apart (R128). -/
theorem paintOver_apart {wk : List (Piece RF)} {p : Piece RF} (hwk : ∀ q ∈ wk, q.good) (hp : p.good)
    (hd : wk.Pairwise Piece.disjoint) (hnew : ∀ q ∈ wk, q.rule.index ≠ p.rule.index) (h : wk.Pairwise Piece.apart) :
    (paintOver wk p).Pairwise Piece.apart := by
  unfold paintOver
  rw [List.pairwise_append]
  refine ⟨?_, List.pairwise_singleton _ _, ?_⟩
  · rw [List.pairwise_flatMap]
    refine ⟨fun q _ => Piece.cut_apart _ _ q hp.1, ?_⟩
    refine (h.and hd).imp_of_mem ?_
    rintro q r hq hr ⟨ha, hdis⟩ x hx y hy
    obtain ⟨⟨e1, -⟩, a1, a2, a3, a4⟩ := Piece.mem_cut (hwk q hq).1 hx
    obtain ⟨⟨e2, -⟩, b1, b2, b3, b4⟩ := Piece.mem_cut (hwk r hr).1 hy
    have hx' := Piece.mem_cut_bounds hx
    have hy' := Piece.mem_cut_bounds hy
    have g1 := hp.1
    intro hi
    rw [e1, e2] at hi
    have hi := ha hi
    unfold Piece.disjoint at hdis
    omega
  · intro x hx y hy
    rw [List.mem_singleton] at hy; subst hy
    rw [List.mem_flatMap] at hx
    obtain ⟨q, hq, hx⟩ := hx
    obtain ⟨⟨e1, -⟩, -⟩ := Piece.mem_cut (hwk q hq).1 hx
    exact fun hi => absurd (e1 ▸ hi) (hnew q hq)

/-- The piece a rule asks for: its contribution, the end cut at the bound (R127). -/
theorem requestedPiece_eq_some {cfg : Config} {rf : RF} {k : DecodeRule RF} {p : Piece RF} :
    requestedPiece cfg rf k = some p ↔
      ∃ c, k.eval cfg rf = some c ∧ c.start ≤ 0xFFFFFFFF ∧ p = ⟨c.start, min c.last 0xFFFFFFFF, k, c⟩ := by
  unfold requestedPiece
  rw [addrMax_eq]
  cases k.eval cfg rf with
  | none => simp
  | some c =>
    simp only [Option.some.injEq, exists_eq_left']
    split
    · rename_i h; simp; omega
    · rename_i h; simp only [Option.some.injEq]; constructor
      · rintro rfl; exact ⟨by omega, rfl⟩
      · rintro ⟨-, rfl⟩; rfl

/-- The clamp on one piece: below the clamp value it is untouched, across it cut, above it removed; a piece the clamp
does not concern is untouched (R125). -/
theorem clampPiece_eq_some {cl : Nat} {p q : Piece RF} :
    clampPiece cl p = some q ↔
      if p.rule.clamp && p.paint.mode.ramBacked then p.s < cl ∧ q = { p with e := min p.e (cl - 1) } else q = p := by
  unfold clampPiece
  split
  · split
    · rename_i h; simp; omega
    · split
      · rename_i h1 h2
        have : min p.e (cl - 1) = cl - 1 := by omega
        simp only [Option.some.injEq, this]
        exact ⟨fun h => ⟨by omega, h.symm⟩, fun h => h.2.symm⟩
      · rename_i h1 h2
        have : min p.e (cl - 1) = p.e := by omega
        simp only [Option.some.injEq, this]
        exact ⟨fun h => ⟨by omega, h.symm⟩, fun h => h.2.symm⟩
  · simp only [Option.some.injEq]; exact eq_comm

theorem insertPiece_perm (p : Piece RF) (l : List (Piece RF)) : (insertPiece p l).Perm (p :: l) := by
  induction l with
  | nil => exact List.Perm.refl _
  | cons q l ih =>
    unfold insertPiece
    split
    · exact List.Perm.refl _
    · exact (ih.cons q).trans (List.Perm.swap p q l)

/-- The sort keeps exactly the pieces. -/
theorem sortPieces_perm (l : List (Piece RF)) : (sortPieces l).Perm l := by
  induction l with
  | nil => exact List.Perm.refl _
  | cons p l ih => exact (insertPiece_perm p _).trans (ih.cons p)

theorem insertPiece_sorted {p : Piece RF} {l : List (Piece RF)} (h : l.Pairwise fun x y => x.s ≤ y.s) :
    (insertPiece p l).Pairwise fun x y => x.s ≤ y.s := by
  induction l with
  | nil => exact List.pairwise_singleton _ _
  | cons q l ih =>
    rw [List.pairwise_cons] at h
    unfold insertPiece
    split
    · rename_i hle
      refine List.pairwise_cons.mpr ⟨?_, List.pairwise_cons.mpr h⟩
      intro x hx
      rcases List.mem_cons.mp hx with rfl | hx
      · exact hle
      · exact hle.trans (h.1 x hx)
    · rename_i hle
      refine List.pairwise_cons.mpr ⟨?_, ih h.2⟩
      intro x hx
      rcases List.mem_cons.mp ((insertPiece_perm p l).mem_iff.mp hx) with rfl | hx
      · omega
      · exact h.1 x hx

/-- The sort is by start, ascending (R128). -/
theorem sortPieces_sorted (l : List (Piece RF)) : (sortPieces l).Pairwise fun x y => x.s ≤ y.s := by
  induction l with
  | nil => exact List.Pairwise.nil
  | cons p l ih => exact insertPiece_sorted ih

/-- The entry of a piece that is not HIDDEN (R128). -/
theorem Piece.entry_eq_some {p : Piece RF} {r : Region} :
    p.entry = some r ↔ p.paint.mode ≠ .hidden ∧
      r = ⟨BitVec.ofNat 32 p.s, BitVec.ofNat 32 p.e, p.paint.mode,
        BitVec.ofNat 32 (p.paint.backing + (p.s - p.paint.start))⟩ := by
  unfold Piece.entry
  split
  · rename_i h; simp [h]
  · rename_i h; simp only [Option.some.injEq]; exact ⟨fun e => ⟨h, e.symm⟩, fun e => e.2.symm⟩

/-- The resolver depends on the registers through the clamp value and what the rules contribute, and on nothing else
(R120). -/
theorem resolveOver_congr {cfg cfg' : Config} {rf rf' : RF} {rules : List (DecodeRule RF)} {tomb : RF → Nat}
    (hcl : min (tomb rf) cfg.ramSize = min (tomb rf') cfg'.ramSize) (h : ∀ k ∈ rules, k.eval cfg rf = k.eval cfg' rf') :
    resolveOver rules tomb cfg rf = resolveOver rules tomb cfg' rf' := by
  have key : ∀ wk, rules.foldl (paintRule cfg rf) wk = rules.foldl (paintRule cfg' rf') wk := by
    clear hcl
    induction rules with
    | nil => intro wk; rfl
    | cons k ks ih =>
      intro wk
      have hk : paintRule cfg rf wk k = paintRule cfg' rf' wk k := by
        simp only [paintRule, requestedPiece, addrMax_eq, h k (by simp)]
      rw [List.foldl_cons, List.foldl_cons, hk]
      exact ih (fun j hj => h j (by simp [hj])) _
  simp only [resolveOver, paintRules, key, hcl]

/-- The rules of EXEMPLAR_NB are those of the table of R131. -/
theorem mem_exemplarRules {k : DecodeRule} : k ∈ exemplarRules ↔ ∃ n : RuleName, n ∈ ruleTable ∧ n.rule = k :=
  List.mem_map

/-- The entry found for an address is one of the list that covers it. -/
theorem regionAt_eq_some {ri : List Region} {a : Word} {r : Region} (h : regionAt ri a = some r) :
    r ∈ ri ∧ r.start ≤ a ∧ a ≤ r.last := by
  have h1 := List.find?_some h
  simp only [Region.covers, Bool.and_eq_true, decide_eq_true_eq] at h1
  exact ⟨List.mem_of_find?_eq_some h, h1⟩

/-- No entry is found for an address exactly when none covers it. -/
theorem regionAt_eq_none {ri : List Region} {a : Word} :
    regionAt ri a = none ↔ ∀ r ∈ ri, ¬ (r.start ≤ a ∧ a ≤ r.last) := by
  unfold regionAt
  rw [List.find?_eq_none]
  simp only [Region.covers, Bool.and_eq_true, decide_eq_true_eq]

end Sys2Proof.Machine
end

