-- ==== Sys2Proof/Machine/Assembler.lean ====
section
/-!
DEFINITION. The textual form of a transaction and the pseudo-instructions (30_encoding.md R89, R90). Nothing of the
machine depends on this file; it says which transactions the spec's own programs are made of.
-/
namespace Sys2Proof.Machine

/-- The low `n` hexadecimal digits of a number, most significant first. -/
def hexDigits : Nat → Nat → List Char
  | 0, _ => []
  | n + 1, v => hexDigits n (v / 16) ++ [(Nat.digitChar (v % 16)).toUpper]

/-- A bit vector as a hexadecimal number, one digit per four bits. -/
def hexText {w : Nat} (v : BitVec w) : String := "0x" ++ String.ofList (hexDigits ((w + 3) / 4) v.toNat)

/-- `REG`: a register's name, or the numeric id of none (R89). -/
def Schema.regText (schema : Schema) (id : Byte) : String :=
  match schema.regOfId id with
  | some r => schema.name r
  | none => hexText id

/-- `PORT` (R89). -/
def portText : Port → String
  | .index => "index"
  | .data => "data"

/-- `DIR` (R89). -/
def dirText : Dir → String
  | .read => "r"
  | .write => "w"

/-- The line of a transaction to a core built with a schema (R89). -/
def Schema.instrText (schema : Schema) : Instr → String
  | .nop => "nop"
  | .cfgrd id => "cfgrd " ++ schema.regText id
  | .cfgwr id data mask => "cfgwr " ++ schema.regText id ++ ", " ++ hexText data ++ ", " ++ hexText mask
  | .iord p => "iord " ++ portText p
  | .iowr p v => "iowr " ++ portText p ++ ", " ++ hexText v
  | .lookup d a => "lookup " ++ dirText d ++ ", " ++ hexText a
  | .reset => "reset"
  | .snapshot => "snapshot"
  | .restore => "restore"

/-- The line of a transaction to EXEMPLAR_NB. -/
def instrText (i : Instr) : String := exemplarSchema.instrText i

/-- `cfgwr.f REG, data`: a full-register write (R90). -/
def asmCfgwrF (r : Reg) (data : Word) : Instr := .cfgwr r.id data (BitVec.ofNat 32 (2 ^ r.width - 1))

/-- `cfgwr.b REG, k, byte`: one byte lane, k < W/8 (R56, R90). -/
def asmCfgwrB (r : Reg) (k : Nat) (byte : Byte) : Instr :=
  .cfgwr r.id (byte.setWidth 32 <<< (8 * k)) (0xFF#32 <<< (8 * k))

/-- `unlock` (R90). -/
def asmUnlock (cfg : Config) : Instr := .iowr .index cfg.unlockByte

/-- `lock` (R90). -/
def asmLock (cfg : Config) : Instr := .iowr .index cfg.lockByte

/-- `siowr i, v` (R90). -/
def asmSiowr (i v : Byte) : List Instr := [.iowr .index i, .iowr .data v]

/-- `siord i` (R90). -/
def asmSiord (i : Byte) : List Instr := [.iowr .index i, .iord .data]

/-- `seldev d` (R90). -/
def asmSeldev (cfg : Config) (d : Byte) : List Instr := asmSiowr cfg.devselIndex d

end Sys2Proof.Machine
end

