-- ==== Sys2Proof/Tests/Slice0.lean ====
section
/-!
SUPPORT. Tests of one step or one word, with the expected values of 95_test_vectors.md (each names its vector), and for
every obligation with hypotheses a concrete state and operands that meet them all (`witness_<obligation>`).
-/
namespace Sys2Proof.Tests

-- One theorem after another: each waits for the kernel, and all of them waiting at once need more threads than there are.
set_option Elab.async false

open Sys2Proof Sys2Proof.Machine

/-! ## Helpers -/

/-- The reset state with nothing on the blob port. -/
def base : State := { State.reset with blobPort := [] }

/-- `base` with another Register File and the installation it gives. -/
def withRegs (rf : RegFile) : State := { base with rf := rf, ri := resolve Config.default rf }

/-- `base` with another port. -/
def withPort (locked : Bool) (sel : BitVec 4) (idx : Byte) (bank : Memory) : State :=
  { base with cp := { locked := locked, sel := sel, idx := idx, bank := bank } }

/-- The state one step on the word `w` leads to, none where it does not answer. -/
def after (w : Txn) (s : State) : Option State :=
  match step (s.withFetchWord 80 w.toNat) with
  | .next t => some t
  | .fault _ => none
  | .refused _ => none

/-- Why one step on the word `w` is refused. -/
def refusal (w : Txn) (s : State) : Option Refusal :=
  match step (s.withFetchWord 80 w.toNat) with
  | .next _ => none
  | .fault _ => none
  | .refused r => some r

/-- The responses after one step on `w`. -/
def answers (w : Txn) (s : State) : Option (List Rsp) := (after w s).map State.responses

/-! ## WellFormed: one ill-formed term for each check -/

theorem test_wellFormed_cfgrd : (Instr.cfgrd 0x52).wellFormed = true ∧ (Instr.cfgrd 0x01).wellFormed = false := by decide

theorem test_wellFormed_cfgwr :
    (Instr.cfgwr 0x52 0 0).wellFormed = true ∧ (Instr.cfgwr 0x53 0 0xFF).wellFormed = false := by decide

/-! ## Decoding, from words of the spec (E1 to E9, R161, R162, R181, R182) -/

theorem test_decode_nop : decode 0x00FFFFFFFFFFFFFFFFFF = .ok .nop := by decide +kernel

theorem test_decode_cfgrd : decode 0x10520000000000000000 = .ok (.cfgrd 0x52) := by decide +kernel

theorem test_decode_cfgwr : decode 0x2059000000FF00000003 = .ok (.cfgwr 0x59 0x00000003 0x000000FF) := by decide +kernel

theorem test_decode_iord :
    decode 0x30000000000000000000 = .ok (.iord .index) ∧ decode 0x30010000000000000000 = .ok (.iord .data) := by decide +kernel

theorem test_decode_iowr :
    decode 0x40000000000000000055 = .ok (.iowr .index 0x55) ∧ decode 0x4001000000000000005A = .ok (.iowr .data 0x5A) := by
  decide +kernel

theorem test_decode_lookup :
    decode 0x500100000000FEDA0010 = .ok (.lookup .write 0xFEDA0010) ∧
    decode 0x500000000000000C0000 = .ok (.lookup .read 0x000C0000) := by decide +kernel

theorem test_decode_reset : decode 0x60123456789ABCDEF012 = .ok .reset := by decide +kernel

theorem test_decode_snapshot : decode 0x70000000000000000000 = .ok .snapshot := by decide +kernel

theorem test_decode_restore : decode 0x80000000000000000000 = .ok .restore := by decide +kernel

theorem test_decode_reserved :
    decode 0x90000000000000000000 = .error (.reservedOp 0x9) ∧
    decode 0xF0000000000000000000 = .error (.reservedOp 0xF) ∧
    decode 0x2159000000FF00000003 = .error (.nonzeroZ 1) := by decide +kernel

theorem test_encode_unused_zero : encode (.iowr .data 0x5A) = 0x4001000000000000005A ∧ encode .nop = 0 := by decide +kernel

theorem test_decodeTableWord :
    decodeTableWord 80 0x2059000000FF00000003 = some (.cfgwr 0x59 0x03 0xFF) ∧
    decodeTableWord 80 0x90000000000000000000 = none := by decide +kernel

/-! ## Packing (E14, E18, E24) and the assembler (R89, R90) -/

theorem test_pack_response :
    Response.pack ⟨.drop, .romShadow, 0⟩ = 0x1900000000 ∧ Response.pack ⟨.ext, .passThrough, 0x003FFFFF⟩ = 0x14003FFFFF := by
  decide +kernel

theorem test_pack_command :
    (Command.install ⟨0x01000000, 0x013FFFFF, .passThrough, 0⟩).pack = 0xC01000000013FFFFF00000000 := by decide +kernel

theorem test_assembler :
    encode (asmCfgwrB (.storage .tom) 1 0xFF) = 0x20520000FF000000FF00 ∧
    encode (asmCfgwrF (.storage .tom) 0x0010) = 0x20520000FFFF00000010 := by decide +kernel

theorem test_instrText : instrText (.cfgwr 0x59 0x03 0xFF) = "cfgwr PAM1, 0x00000003, 0x000000FF" := by decide +kernel

/-! ## Steps -/

/-- A2.3. -/
theorem test_nop : after 0 base = some base := by decide +kernel

/-- The idle step: no request, nothing happens (log 3). -/
theorem test_idle : step base = .next base := rfl

/-- A1.4: parameters other than the defaults. -/
theorem test_cfgrd_const :
    answers 0x10000000000000000000 { base with cfg := { Config.default with deviceId := 0x12345678 } } = some [0x0012345678] ∧
    answers 0x10080000000000000000 { base with cfg := { Config.default with revisionId := 0xA1 } } = some [0x00000000A1] := by
  decide +kernel

/-- A5.3 after A5.1: unused fields are ignored, bits above the register width too. -/
theorem test_cfgrd_unused :
    ((after 0x2052FFFFFFFFABCD0040 base).bind (answers 0x1052DEADBEEFCAFEF00D)) = some [0x0000000040] := by decide +kernel

/-- S7: the whole list and the whole command sequence. -/
theorem test_cfgwr_pam1 :
    (after 0x20590000000300000003 base).map (fun t => (t.ri, t.installer.drop 3)) =
      some ([⟨0x00000000, 0x0009FFFF, .ram, 0x00000000⟩, ⟨0x000C0000, 0x000C3FFF, .ram, 0x000C0000⟩,
             ⟨0x00100000, 0x01FFFFFF, .ram, 0x00100000⟩],
        [0x0000000000000000000000000, 0xB000000000009FFFF00000000, 0xB000C0000000C3FFF000C0000,
         0xB0010000001FFFFFF00100000]) := by decide +kernel

/-- A7.1, A7.2: SMRAMC locks itself. -/
theorem test_cfgwr_self_lock :
    ((after 0x2072000000FF00000058 base).bind (after 0x2072000000FF00000000)).map (fun t => t.rf.smramc) = some 0x58 := by
  decide +kernel

/-- S6 row 9 and the unlocked read of row 6. -/
theorem test_iord_data :
    answers 0x30010000000000000000 (withPort true 0 0x30 [(0x30, 0x5A)]) = some [0] ∧
    answers 0x30010000000000000000 (withPort false 0 0x30 [(0x30, 0x5A)]) = some [0x5A] := by decide +kernel

/-- S6 rows 2 and 3, column "true": the key latches the index. -/
theorem test_iord_key_latched :
    ((after 0x40000000000000000055 { base with cfg := { Config.default with keyLatchesIndex := true } }).bind
      (answers 0x30000000000000000000)) = some [0x55] := by decide +kernel

/-- A data write at DEVSEL_INDEX selects `v[3:0]` and stores all of `v` in device 0 (R164). -/
theorem test_iowr_devsel :
    (after 0x400100000000000000F3 (withPort false 0 0x07 [])).map State.cp = some ⟨false, 3, 0x07, [(0x07, 0xF3)]⟩ := by
  decide +kernel

/-- S6 row 10: an index write while LOCKED is ignored. -/
theorem test_iowr_locked :
    (after 0x40000000000000000031 (withPort true 0 0x30 [])).map State.cp = some ⟨true, 0, 0x30, []⟩ := by decide +kernel

/-- S4 rows 2 and 3. -/
theorem test_lookup_romShadow :
    answers 0x500000000000000C0000 (withRegs { base.rf with pam1 := 0x01 }) = some [0x09000C0000] ∧
    answers 0x500100000000000C0000 (withRegs { base.rf with pam1 := 0x01 }) = some [0x1900000000] := by decide +kernel

/-- S5 rows 2 and 3: the clamp value itself is not mapped. -/
theorem test_lookup_clamp :
    answers 0x50000000000000FFFFFF (withRegs { base.rf with tom := 0x0010 }) = some [0x0B00FFFFFF] ∧
    answers 0x50000000000001000000 (withRegs { base.rf with tom := 0x0010 }) = some [0] := by decide +kernel

/-- A8.9: RESET clears LOCKCTL although it locks itself. -/
theorem test_reset :
    (after 0x60000000000000000000 (withRegs { base.rf with lockctl := 0x87, pam3 := 0x33 })).map
      (fun t => (t.rf.lockctl, t.rf.pam3, t.rf.tom, t.ri)) = some (0, 0, 0x0020, State.reset.ri) := by decide +kernel

/-- R183: the head of the blob, with TOM at 0x0005 least significant byte first, and its length. -/
theorem test_snapshot :
    (after 0x70000000000000000000 (withRegs { base.rf with tom := 0x0120, apbase := 0x12C00000 })).map
      (fun t => (t.blobsOut.map (fun b => (b.take 7, b.length)), t.responses)) =
      some ([([0x00, 0x00, 0xC0, 0x12, 0x00, 0x20, 0x01], 4120)], [0]) := by decide +kernel

/-- R182: reserved bits are not loaded, a nonzero `locked` byte is LOCKED. -/
theorem test_restore :
    (after 0x80000000000000000000
      { base with blobPort := List.replicate 5 0xFF ++ [0x40, 0xF0] ++ List.replicate 14 0 ++ [0x02, 0xF3, 0x30] ++
                    [0x5A] ++ List.replicate 4095 0 }).map (fun t => (t.rf.apbase, t.rf.lockctl, t.rf.tom, t.cp)) =
      some (0xFFC00000, 0x87, 0x0040, ⟨true, 3, 0x30, [(0, 0x5A)]⟩) := by decide +kernel

/-- R182: a blob of another length is refused. -/
theorem test_restore_length : refusal 0x80000000000000000000 base = some (.wrongBlobLength 0) := by decide +kernel

/-- E9 to E12: refusals by name. -/
theorem test_refusals :
    refusal 0x2159000000FF00000003 base = some (.reservedWord (.nonzeroZ 1)) ∧
    refusal 0x10010000000000000000 base = some (.unknownRegister 0x01) ∧
    refusal 0x2053000000FF00000000 base = some (.unknownRegister 0x53) ∧
    refusal 0x10FF0000000000000000 base = some (.unknownRegister 0xFF) := by decide +kernel

/-! ## The reset state -/

theorem test_reset_registers : State.reset.rf = resetRegFile Config.default := by decide +kernel

theorem test_reset_installation : State.reset.ri = resolve State.reset.cfg State.reset.rf := by decide +kernel

theorem test_reset_bank : State.reset.cp.bank.wf = true := by decide

/-- No reserved bit of `base` is set. -/
theorem base_reservedKept : base.rf.reservedKept Config.default := by intro r; cases r <;> decide

theorem base_inv : base.Inv where
  paramsValid := by decide +kernel
  reservedKept := base_reservedKept
  bankWf := by decide
  derived := by decide +kernel

theorem base_ordered : regionsOrdered base.ri := by
  unfold regionsOrdered Region.proper; decide +kernel

/-! ## Witnesses: the hypotheses of each obligation are met -/

/-- The transaction `i` completes at `s`. -/
def completes (i : Instr) (s : State) : Bool :=
  match exec i s with
  | .next _ => true
  | .fault _ => false
  | .refused _ => false

theorem witness_OnlyUsedBitsDecode :
    decode 0x5001FFFFFFFFFEDA0010 = .ok (.lookup .write 0xFEDA0010) ∧
    (0x50FF00000000FEDA0010 : Txn) &&& (Instr.lookup .write 0xFEDA0010).usedBits =
      0x5001FFFFFFFFFEDA0010 &&& (Instr.lookup .write 0xFEDA0010).usedBits := by decide +kernel

/-- Both sides of the equivalence, at OP 8 and 9 and at Z 0 and 1. -/
theorem witness_ReservedWordsRefused :
    validConfig base.cfg = true ∧
    refusal 0x90000000000000000000 base = some (.reservedWord (.reservedOp 9)) ∧
    refusal 0x01000000000000000000 base = some (.reservedWord (.nonzeroZ 1)) ∧
    refusal 0x80000000000000000000 State.reset = none := by decide +kernel

theorem witness_StepRunsDecodedTransaction :
    validConfig base.cfg = true ∧ base.requests = [] ∧
    (base.withFetchWord 80 0x70000000000000000000).requests = [⟨0x70000000000000000000, []⟩] ∧
    decode 0x70000000000000000000 = .ok .snapshot := by decide +kernel

theorem witness_IdsOutsideSchemaRefused :
    (0x53 : Byte) ∉ ([0x00, 0x08, 0x10, 0x50, 0x52, 0x59, 0x5A, 0x5B, 0x5C, 0x5D, 0x5E, 0x5F, 0x72, 0x73, 0xB4, 0xF0] :
      List Byte) := by decide

theorem witness_NopChangesNothing : (0x00FFFFFFFFFFFFFFFFFF : Txn).extractLsb' 72 8 = 0 := by decide +kernel

theorem witness_SchemaMatchesTable_CfgrdAnswersRegister :
    (0x53 : Byte) ≠ 0x00 ∧ (0x53 : Byte) ≠ 0x08 ∧ ∀ r : StorageReg, (0x53 : Byte) ≠ r.id := by
  refine ⟨by decide, by decide, ?_⟩
  intro r; cases r <;> decide

theorem witness_CommandWordLayout :
    (⟨0x00000000, 0x0009FFFF, .ram, 0x00000000⟩ : Region) ∈ resolve Config.default base.rf := by decide +kernel

/-- Each lock bit 0 with every other one 1: a register of each row of the lock table, and SCRATCH. -/
theorem witness_CfgwrStoresSelectedBits :
    (withRegs { base.rf with lockctl := 0x86, smramc := 0x10 }).rf.lockctl.getLsbD 0 = false ∧
    (withRegs { base.rf with lockctl := 0x85, smramc := 0x10 }).rf.lockctl.getLsbD 1 = false ∧
    (withRegs { base.rf with lockctl := 0x83, smramc := 0x10 }).rf.lockctl.getLsbD 2 = false ∧
    (withRegs { base.rf with lockctl := 0x07, smramc := 0x10 }).rf.lockctl.getLsbD 7 = false ∧
    (withRegs { base.rf with lockctl := 0x87, smramc := 0x48 }).rf.smramc.getLsbD 4 = false ∧
    StorageReg.scratch ∉ [StorageReg.pam1, .pam2, .pam3, .pam4, .pam5, .pam6, .pam7] := by decide

theorem witness_DiscardedWritesChangeNothing :
    (withRegs { base.rf with lockctl := 0x01 }).rf.lockBitSet .pam1 = true ∧ base.cp.locked = true ∧
    ¬ (Port.index = .index ∧ (0x31 : Byte) = base.cfg.unlockByte) ∧
    ¬ (Port.data = .index ∧ (0x55 : Byte) = base.cfg.unlockByte) := by decide

/-- One register file for each row of the lock table. -/
theorem witness_LockEnforcement :
    (withRegs { base.rf with lockctl := 0x01 }).rf.lockctl.getLsbD 0 = true ∧
    (withRegs { base.rf with lockctl := 0x02 }).rf.lockctl.getLsbD 1 = true ∧
    (withRegs { base.rf with lockctl := 0x04 }).rf.lockctl.getLsbD 2 = true ∧
    (withRegs { base.rf with lockctl := 0x80 }).rf.lockctl.getLsbD 7 = true ∧
    (withRegs { base.rf with smramc := 0x10 }).rf.smramc.getLsbD 4 = true := by decide

/-- The lock bits are clear before, and set after, the writes of A7.1 and A8.1. -/
theorem witness_LockJudgedBeforeWrite :
    base.rf.smramc.getLsbD 4 = false ∧ base.rf.lockctl.getLsbD 7 = false ∧
    (after 0x2072000000FF00000058 base).map (fun t => t.rf.smramc.getLsbD 4) = some true ∧
    (after 0x2050000000FF00000087 base).map (fun t => t.rf.lockctl.getLsbD 7) = some true := by decide +kernel

/-- Everything locked at once, and a write that completes. -/
theorem witness_FrozenUntilResetOrRestore :
    Instr.cfgwr 0x59 0x33 0xFF ≠ .reset ∧ Instr.cfgwr 0x59 0x33 0xFF ≠ .restore ∧
    completes (.cfgwr 0x59 0x33 0xFF) (withRegs { base.rf with lockctl := 0x87, smramc := 0x10 }) = true ∧
    (withRegs { base.rf with lockctl := 0x87, smramc := 0x10 }).rf.lockctl = 0x87 ∧
    (withRegs { base.rf with lockctl := 0x87, smramc := 0x10 }).rf.smramc.getLsbD 4 = true := by decide +kernel

theorem witness_MaskCorrectness : base.rf.lockBitSet .tom = false ∧ base.rf.lockBitSet .scratch = false := by decide

theorem witness_RepeatedWrites :
    completes (.cfgwr 0x59 0x03 0xFF) base = true ∧ base.cfg.unlockByte ≠ base.cfg.lockByte ∧
    base.cp.bank.wf = true ∧ completes (.iowr .index 0x55) base = true := by decide +kernel

/-- An event and two transactions that are none: a locked write, and a write to SCRATCH. -/
theorem witness_ResolverRunsOnItsEvents :
    completes .reset base = true ∧ resolverEvent .reset base ∧
    completes (.cfgwr 0x59 0 0) (withRegs { base.rf with lockctl := 0x01 }) = true ∧
    ¬ resolverEvent (.cfgwr 0x59 0 0) (withRegs { base.rf with lockctl := 0x01 }) ∧
    ¬ resolverEvent (.cfgwr 0xF0 0 0) base := by
  refine ⟨rfl, trivial, by decide +kernel, ?_, ?_⟩ <;> rintro ⟨r, h, hd, hl⟩ <;> cases h
  · exact absurd hl (by decide)
  · exact absurd hd (by decide)

/-- The first address after LOWRAM is covered by no entry of the reset installation. -/
theorem witness_InstallationOrdered :
    (⟨0x00000000, 0x0009FFFF, .ram, 0x00000000⟩ : Region) ∈ resolve Config.default base.rf ∧
    ∀ e ∈ resolve Config.default base.rf, ¬ (e.start ≤ (0x000A0000 : Word) ∧ (0x000A0000 : Word) ≤ e.last) := by decide +kernel

theorem witness_RuleTableValid :
    validConfig Config.default = true ∧
    (RuleName.rule (.pam 13)).eval Config.default base.rf = some ⟨0x000F4000, 0x000F7FFF, .hidden, 0x000F4000⟩ ∧
    RuleName.rule (.pam 13) ∈ exemplarNb.rules ∧
    ∀ r : StorageReg, exemplarNb.schema.decodeRelevant r = true → base.rf.get r = RegFile.get { base.rf with scratch := 1, lockctl := 0x87 } r := by
  refine ⟨by decide +kernel, by decide +kernel, List.mem_map_of_mem (by decide +kernel), ?_⟩
  intro r; cases r <;> decide

/-! A core on other tables: a CONST register of 16 bits at id 0x01, a STORAGE register TOP of 16 bits at id 0x20 and
another, GATE, of 8 bits at id 0x40 whose bit 0 locks TOP; one rule, which maps the whole address space to RAM. -/

/-- The widths of TOP (false) and GATE (true). -/
def flatWidth : Bool → Nat
  | false => 16
  | true => 8

/-- The write-masks of TOP and GATE. -/
def flatMask : (r : Bool) → BitVec (flatWidth r)
  | false => 0x00FF#16
  | true => 0x01#8

/-- The reset values of TOP and GATE. -/
def flatReset : (r : Bool) → BitVec (flatWidth r)
  | false => 0x0001#16
  | true => 0x00#8

/-- Reading TOP and GATE. -/
def flatGet (rf : BitVec 16 × BitVec 8) : (r : Bool) → BitVec (flatWidth r)
  | false => rf.1
  | true => rf.2

/-- Storing to TOP and GATE. -/
def flatSet (rf : BitVec 16 × BitVec 8) : (r : Bool) → BitVec (flatWidth r) → BitVec 16 × BitVec 8
  | false, v => (v, rf.2)
  | true, v => (rf.1, v)

/-- The register an id names. -/
def flatRegOfId (id : Byte) : Option (Reg Unit Bool) :=
  if id = 0x01 then some (.const ()) else if id = 0x20 then some (.storage false)
  else if id = 0x40 then some (.storage true) else none

/-- The id of a register. -/
def flatId : Reg Unit Bool → Byte
  | .const _ => 0x01
  | .storage false => 0x20
  | .storage true => 0x40

theorem flatRegOfId_iff (i : Byte) (r : Reg Unit Bool) : flatRegOfId i = some r ↔ i = flatId r := by
  constructor
  · intro h
    unfold flatRegOfId at h
    split at h
    · cases h; assumption
    · split at h
      · cases h; assumption
      · split at h
        · cases h; assumption
        · cases h
  · rintro rfl
    match r with
    | .const () => rfl
    | .storage false => rfl
    | .storage true => rfl

/-- The tables of that core. -/
def flatTables : Tables where
  schema :=
    { ConstId := Unit
      StorageId := Bool
      Values := BitVec 16 × BitVec 8
      name := fun r => match r with | .const _ => "VERSION" | .storage false => "TOP" | .storage true => "GATE"
      regOfId := flatRegOfId
      constWidth := fun _ => 16
      constValue := fun _ _ => 0xBEEF#16
      width := flatWidth
      writeMask := flatMask
      resetValue := fun _ r => flatReset r
      lock := fun r => if r then none else some fun rf => rf.2.getLsbD 0
      decodeRelevant := fun r => !r
      get := flatGet
      set := flatSet
      ofValues := fun f => (f false, f true)
      storageIds := [false, true]
      blobOffset := fun r => if r then 2 else 0 }
  rules := [⟨"FLAT", 0, fun _ _ => some ⟨0x00000000, 0xFFFFFFFF, .ram, 0x00000000⟩, true⟩]
  tomb rf := rf.1.toNat <<< 20

theorem flatTables_lawful : flatTables.schema.Lawful where
  widths r := by cases r <;> decide
  constWidths _ := .inr (.inl rfl)
  hasId r := ⟨flatId r, (flatRegOfId_iff _ r).mpr rfl⟩
  idsDistinct i j r hi hj := ((flatRegOfId_iff i r).mp hi).trans ((flatRegOfId_iff j r).mp hj).symm
  get_set rf r v := by cases r <;> rfl
  get_set_ne rf r q v h := by cases r <;> cases q <;> first | exact absurd rfl h | rfl
  get_ofValues f r := by cases r <;> rfl
  ext rf rf' h := Prod.ext (h false) (h true)
  allStored
    | false => .head _
    | true => .tail _ (.head _)
  ascending := by
    refine List.pairwise_pair.mpr fun i j hi hj => ?_
    rw [(flatRegOfId_iff i _).mp hi, (flatRegOfId_iff j _).mp hj]
    decide
  offsets before after r h := by
    match before, h with
    | [], h => cases h; rfl
    | [_], h => cases h; rfl
    | [_, _], h => cases h
    | _ :: _ :: _ :: _, h => cases h

theorem flatTables_valid : flatTables.Valid where
  orderTotal := List.pairwise_singleton _ _
  inRange _ _ k c _ hk hc := by
    cases List.mem_singleton.mp hk
    cases hc; decide
  readsRelevant _ rf rf' h := by
    refine ⟨congrArg (fun v : BitVec 16 => v.toNat <<< 20) (h false rfl), fun k hk => ?_⟩
    cases List.mem_singleton.mp hk; rfl

/-- Right after construction, with GATE open, and the given words waiting. -/
def flatState (gate : Byte) (ws : List Txn) : State flatTables.schema.Values where
  cfg := Config.default
  rf := (0x0001, gate)
  cp := resetConfigPort Config.default
  ri := flatTables.resolve Config.default (0x0001, gate)
  installer := []
  responses := []
  blobsOut := []
  requests := ws.map fun w => ⟨w, []⟩
  blobPort := []

/-- One step of that core: TOP and the installation after it, and the response. -/
def flatAfter (gate : Byte) (w : Txn) : Option (BitVec 16 × List Region × List Rsp) :=
  match flatTables.step (flatState gate [w]) with
  | .next t => some (t.rf.1, t.ri, t.responses)
  | .fault _ => none
  | .refused _ => none

/-- The premises of AnyTableMatchesArbiter, EntriesAreNotMerged, AnyTableKeepsDerivedInstallation, AnySchemaRegisterAccess and
AnySchemaHostOperations, on tables that are not those of EXEMPLAR_NB. -/
theorem witness_AnyTable :
    flatTables.schema.Lawful ∧ flatTables.Valid ∧ validConfig Config.default = true ∧
    (flatState 0 []).ri = flatTables.resolve (flatState 0 []).cfg (flatState 0 []).rf ∧
    flatTables.schema.regOfId 0x02 = none ∧ flatTables.schema.regOfId 0x01 = some (.const ()) ∧
    flatTables.schema.regOfId 0x20 = some (.storage false) ∧
    flatTables.schema.locked (flatState 0 []).rf false = false ∧ flatTables.schema.locked (flatState 1 []).rf false = true ∧
    (∀ r, flatTables.schema.get (flatState 0 []).rf r &&& ~~~flatTables.schema.writeMask r =
      flatTables.schema.resetValue Config.default r &&& ~~~flatTables.schema.writeMask r) ∧
    (flatState 0 []).cp.bank.wf = true :=
  ⟨flatTables_lawful, flatTables_valid, by decide +kernel, rfl, rfl, rfl, rfl, by decide, by decide,
    fun r => by cases r <;> decide, by decide⟩

/-- On that core a CFGWR to TOP stores what both masks select and the resolver runs, a locked one changes nothing, a
CFGRD answers TOP, and an id of EXEMPLAR_NB that this schema has not is refused. -/
theorem test_other_tables :
    flatAfter 0 0x20200000FFFF0000FF10 = some (0x0010, [⟨0x00000000, 0x00FFFFFF, .ram, 0x00000000⟩], []) ∧
    flatAfter 1 0x20200000FFFF0000FF10 = some (0x0001, [⟨0x00000000, 0x000FFFFF, .ram, 0x00000000⟩], []) ∧
    flatAfter 0 0x10200000000000000000 = some (0x0001, [⟨0x00000000, 0x000FFFFF, .ram, 0x00000000⟩], [0x0000000001]) ∧
    flatAfter 0 0x10520000000000000000 = none := by decide +kernel

/-- LOWRAM and the enabled VIDRAM, both RAM with contiguous backing: 0x0009FFFF and 0x000A0000 are neighbours, both mapped,
decided by rules 0 and 1, and stay two entries; 0x0009FFFE and 0x0009FFFF are decided by one rule (R128). -/
theorem witness_EntriesAreNotMerged :
    let rf := { base.rf with smramc := 0x08 }
    (resolve Config.default rf).take 2 =
      [⟨0x00000000, 0x0009FFFF, .ram, 0x00000000⟩, ⟨0x000A0000, 0x000BFFFF, .ram, 0x000A0000⟩] ∧
    (0x0009FFFF : Word).toNat + 1 = (0x000A0000 : Word).toNat ∧
    [0x0009FFFE, 0x0009FFFF, 0x000A0000].map
        (fun a => (decidingOver exemplarNb.rules Config.default rf a).map fun d => d.1.index) =
      [some 0, some 0, some 1] := by decide +kernel

/-- The alias enabled: its entry lies above the clamp value. -/
theorem witness_NothingRamBackedAboveClamp :
    (⟨0xFEDA0000, 0xFEDBFFFF, .ram, 0x000A0000⟩ : Region) ∈
      resolve Config.default { base.rf with smramc := 0x40, esmramc := 0x20 } ∧
    min (base.rf.tom.toNat % 4096 * 2 ^ 20) Config.default.ramSize ≤ (0xFEDBFFFF : Word).toNat := by decide +kernel

theorem witness_ResolverReadsOnlyItsInputs :
    Config.default.ramSize = { Config.default with deviceId := 1 }.ramSize ∧
    Config.default.aliasBacking = { Config.default with deviceId := 1 }.aliasBacking ∧
    ∀ r : StorageReg, r ≠ .lockctl → r ≠ .scratch →
      base.rf.get r = RegFile.get { base.rf with scratch := 1, lockctl := 0x87 } r := by
  refine ⟨rfl, rfl, ?_⟩
  intro r; cases r <;> decide

/-- An ordered installation, the last address of an entry, and the first address no entry covers. -/
theorem witness_LookupAnswersRoute :
    regionsOrdered base.ri ∧
    (∃ e ∈ base.ri, e.start ≤ (0x0009FFFF : Word) ∧ (0x0009FFFF : Word) ≤ e.last) ∧
    ∀ e ∈ base.ri, ¬ (e.start ≤ (0x000A0000 : Word) ∧ (0x000A0000 : Word) ≤ e.last) :=
  ⟨base_ordered, by decide +kernel, by decide +kernel⟩

/-- With an aperture enabled from 0xD0000000 on. -/
theorem witness_LookupBelowPam :
    let s := withRegs { base.rf with apbase := 0xD0000000, apsize := 0x80 }
    s.ri = resolve s.cfg s.rf ∧ ¬ s.rf.apertureReaches 0x000BFFFF ∧ (0x000BFFFF : Word).toNat < 0x000C0000 := by
  unfold RegFile.apertureReaches; decide +kernel

/-- The first and the last address of sub-range 13, and both ends of the strip above it, with an aperture enabled from
0xD0000000 on. -/
theorem witness_LookupInPam :
    let s := withRegs { base.rf with apbase := 0xD0000000, apsize := 0x80 }
    s.ri = resolve s.cfg s.rf ∧ ¬ s.rf.apertureReaches 0x000F4000 ∧ ¬ s.rf.apertureReaches 0x000FFFFF ∧
    0x000C0000 + 13 * 0x4000 ≤ (0x000F4000 : Word).toNat ∧ (0x000F7FFF : Word).toNat < 0x000C0000 + (13 + 1) * 0x4000 ∧
    0x000F8000 ≤ (0x000F8000 : Word).toNat ∧ (0x000FFFFF : Word).toNat ≤ 0x000FFFFF := by
  unfold RegFile.apertureReaches; decide +kernel

/-- Both ends of the address space above 1 MiB, the alias range with one enable bit 0 and its neighbours with both 1, and
the first address past an enabled aperture. -/
theorem witness_LookupMainRam :
    let s := withRegs { base.rf with apbase := 0xD0000000, apsize := 0x80, smramc := 0x40 }
    s.ri = resolve s.cfg s.rf ∧ ¬ s.rf.apertureReaches 0xD0400000 ∧ ¬ s.rf.apertureReaches 0xFEDA0000 ∧
    [(0x00100000 : Word), 0xFED9FFFF, 0xFEDA0000, 0xFEDBFFFF, 0xFEDC0000, 0xFFFFFFFF].all
      (fun a => decide (0x00100000 ≤ a.toNat ∧ ¬ (0xFEDA0000 ≤ a.toNat ∧ a.toNat ≤ 0xFEDBFFFF ∧
        s.rf.smramc.getLsbD 6 = true ∧ s.rf.esmramc.getLsbD 5 = true))) = true ∧
    [(0xFED9FFFF : Word), 0xFEDC0000].all
      (fun a => decide (¬ (0xFEDA0000 ≤ a.toNat ∧ a.toNat ≤ 0xFEDBFFFF))) = true := by
  unfold RegFile.apertureReaches; decide +kernel

/-- Both ends of the alias range, with an aperture enabled below it. -/
theorem witness_LookupSmramAlias :
    let s := withRegs { base.rf with smramc := 0x40, esmramc := 0x20, apbase := 0xFE800000, apsize := 0x80 }
    s.ri = resolve s.cfg s.rf ∧ ¬ s.rf.apertureReaches 0xFEDA0000 ∧ ¬ s.rf.apertureReaches 0xFEDBFFFF ∧
      s.rf.smramc.getLsbD 6 = true ∧ s.rf.esmramc.getLsbD 5 = true ∧
      0xFEDA0000 ≤ (0xFEDA0000 : Word).toNat ∧ (0xFEDBFFFF : Word).toNat ≤ 0xFEDBFFFF := by
  unfold RegFile.apertureReaches; decide +kernel

/-- The smallest aperture, at its last address; and no aperture. -/
theorem witness_LookupAperture :
    let s := withRegs { base.rf with apbase := 0x10000000, apsize := 0x80 }
    s.ri = resolve s.cfg s.rf ∧ s.rf.apsize.getLsbD 7 = true ∧ s.rf.apbase.toNat ≤ (0x103FFFFF : Word).toNat ∧
      (0x103FFFFF : Word).toNat < s.rf.apbase.toNat + 0x00400000 * 2 ^ min (s.rf.apsize.toNat % 16) 6 ∧
      base.rf.apsize.getLsbD 7 = false := by decide +kernel

theorem witness_IordAnswersPort :
    base.cp.locked = true ∧ (withPort false 3 0x2F []).cp.locked = false ∧ (withPort false 3 0x30 []).cp.locked = false := by
  decide

/-- A state for each row: T1 to T3 LOCKED, T6 to T10 UNLOCKED, with index 0x2F, 0x07 and 0x30 on the data port. -/
theorem witness_PortTransitionTable :
    base.cfg.devselIndex.toNat ≤ 0x2F ∧ base.cp.locked = true ∧ (0x55 : Byte) = base.cfg.unlockByte ∧
    (0xAA : Byte) ≠ base.cfg.unlockByte ∧ (0xAA : Byte) = base.cfg.lockByte ∧ (0x55 : Byte) ≠ base.cfg.lockByte ∧
    (withPort false 3 0x2F []).cp.idx.toNat ≤ 0x2F ∧ (withPort false 3 0x2F []).cp.idx ≠ base.cfg.devselIndex ∧
    (withPort false 3 0x07 []).cp.idx = base.cfg.devselIndex ∧ 0x2F < (withPort false 3 0x30 []).cp.idx.toNat := by decide

theorem witness_BankWriteReadsBack :
    (withPort false 3 0x30 [(0x30, 0x5A)]).cp.bank.wf = true ∧ (withPort false 3 0x30 [(0x30, 0x5A)]).cp.locked = false := by
  decide

theorem witness_LockedPortIsInert :
    base.cp.locked = true ∧ base.cfg.keyLatchesIndex = false ∧ completes (.iowr .index 0x55) base = true ∧
    completes (.iowr .data 0x55) base = true := by decide +kernel

theorem witness_PortSurvivesLock :
    base.cfg.keyLatchesIndex = false ∧ (withPort false 3 0x30 [(0x330, 0x5A)]).cp.locked = false := by decide

theorem witness_LockByteIndexUnreachable :
    base.cfg.unlockByte ≠ base.cfg.lockByte ∧ base.cfg.lockByte ≠ 0 ∧ Instr.iowr .index 0xAA ≠ .restore ∧
    completes (.iowr .index 0xAA) (withPort false 0 0x30 []) = true ∧
    (withPort false 0 0x30 []).cp.idx ≠ base.cfg.lockByte := by decide +kernel

theorem witness_HiddenCellsKept :
    Instr.iowr .data 0x5A ≠ .reset ∧ Instr.iowr .data 0x5A ≠ .restore ∧
    completes (.iowr .data 0x5A) (withPort false 3 0x2F []) = true ∧ (3 : BitVec 4) ≠ 0 ∧ (0x2F : Byte).toNat ≤ 0x2F := by
  decide +kernel

/-- The write that selects another device, and a state in which it does. -/
theorem witness_DeviceSelect :
    (after 0x400100000000000000F3 (withPort false 0 0x07 [])).map (fun t => t.cp.sel) = some 3 ∧
    base.cfg.devselIndex.toNat ≤ 0x2F ∧ (withPort false 0 0x07 []).cp.bank.wf = true ∧
    (withPort false 0 0x07 []).cp.locked = false ∧ (withPort false 0 0x07 []).cp.idx = base.cfg.devselIndex := by
  decide +kernel

theorem witness_ResetResult : base.cfg = Config.default := rfl

/-- The highest byte of a register in the blob. -/
theorem witness_SnapshotResult : (StorageReg.scratch, 0x0011) ∈ blobTable ∧ 3 < StorageReg.scratch.width / 8 := by decide

theorem witness_RestoreResult :
    (StorageReg.scratch, 0x0011) ∈ blobTable ∧ 3 < StorageReg.scratch.width / 8 ∧
    State.reset.blobPort.length = 4120 ∧ base.blobPort.length ≠ 4120 := by decide +kernel

theorem witness_SnapshotThenRestore : base.Inv ∧ State.reset.cfg = base.cfg := ⟨base_inv, rfl⟩

theorem witness_ReadsChangeNoState :
    completes .snapshot base = true ∧ (∀ id data mask, Instr.snapshot ≠ .cfgwr id data mask) ∧
    (∀ p v, Instr.snapshot ≠ .iowr p v) ∧ Instr.snapshot ≠ .reset ∧ Instr.snapshot ≠ .restore ∧
    Instr.snapshot.wellFormed = true :=
  ⟨rfl, nofun, nofun, by decide, by decide, rfl⟩

/-- A write that changes a register, and one that changes the port. -/
theorem witness_OnlyNamedTransactionsChangeState :
    (after 0x2059000000FF00000003 base).map (fun t => decide (t.rf ≠ base.rf)) = some true ∧
    (after 0x40000000000000000055 base).map (fun t => decide (t.cp ≠ base.cp)) = some true := by decide +kernel

theorem witness_HistoriesOnlyGrow : completes (.cfgrd 0x52) base = true ∧ completes .snapshot base = true := ⟨rfl, rfl⟩

/-- A step on a register write answers, from a state with the invariants. -/
theorem witness_StepKeeps : base.Inv ∧ (after 0x2059000000FF000000FF base).isSome = true :=
  ⟨base_inv, by decide +kernel⟩

/-- The premises of the step invariants, in the state with that write waiting. -/
theorem witness_StepKeepsInvariants : (base.withFetchWord 80 0x2059000000FF000000FF).Inv where
  paramsValid := base_inv.paramsValid
  reservedKept := base_inv.reservedKept
  bankWf := base_inv.bankWf
  derived := base_inv.derived

end Sys2Proof.Tests
end

section
/-!
PROOFS. The resolver over any rule table answers as the pointwise arbiter does (41_resolver.md R120 to R128): the working
map holds at each address the piece of the deciding rule, and the clamp and the emission keep or drop it there.
-/
namespace Sys2Proof.Machine

variable {RF : Type} {cfg : Config} {rf : RF} {rules : List (DecodeRule RF)}

/-- R139 (b) for one register file: every rule that contributes does so on a range with start ≤ end. -/
def rangesOrdered (rules : List (DecodeRule RF)) (cfg : Config) (rf : RF) : Prop :=
  ∀ k ∈ rules, ∀ c, k.eval cfg rf = some c → c.start ≤ c.last

/-- Valid tables contribute ordered ranges only (R139 (b)). -/
theorem Tables.Valid.rangesOrdered {tables : Tables} (hv : tables.Valid) {cfg : Config} (hcfg : validConfig cfg = true)
    (rf : tables.schema.Values) : rangesOrdered tables.rules cfg rf :=
  fun k hk c hc => (hv.inRange cfg rf k c hcfg hk hc).1

/-! ## Steps 1 and 2: the working map -/

/-- Step 2 takes the rules in declared order: the last rule paints over what the others left (R124). -/
theorem paintRules_append (rules : List (DecodeRule RF)) (k : DecodeRule RF) :
    paintRules cfg rf (rules ++ [k]) = paintRule cfg rf (paintRules cfg rf rules) k := by
  simp [paintRules]

/-- A rule that asks for no piece leaves the working map (R126, R127). -/
theorem paintRule_of_none {k : DecodeRule RF} (h : requestedPiece cfg rf k = none) (wk : List (Piece RF)) :
    paintRule cfg rf wk k = wk := by
  simp only [paintRule, h]

/-- A rule that asks for a piece paints it over the working map (R124). -/
theorem paintRule_of_some {k : DecodeRule RF} {p : Piece RF} (h : requestedPiece cfg rf k = some p)
    (wk : List (Piece RF)) : paintRule cfg rf wk k = paintOver wk p := by
  simp only [paintRule, h]

/-- A rule with an ordered range asks for a good piece (R127). -/
theorem requestedPiece_good {k : DecodeRule RF} {p : Piece RF} (hk : ∀ c, k.eval cfg rf = some c → c.start ≤ c.last)
    (h : requestedPiece cfg rf k = some p) : p.good := by
  obtain ⟨c, hc, hstart, rfl⟩ := requestedPiece_eq_some.mp h
  have hle := hk c hc
  exact ⟨by simp only; omega, by simp only; omega, le_refl _⟩

/-- After step 2 every piece is a range of the decoded space. -/
theorem paintRules_good (h : rangesOrdered rules cfg rf) : ∀ q ∈ paintRules cfg rf rules, q.good := by
  induction rules using List.reverseRecOn with
  | nil => exact fun _ hq => absurd hq List.not_mem_nil
  | append_singleton rules k ih =>
    have hwk := ih fun j hj => h j (by simp [hj])
    rw [paintRules_append]
    cases hp : requestedPiece cfg rf k with
    | none => rwa [paintRule_of_none hp]
    | some p =>
      rw [paintRule_of_some hp]
      exact paintOver_good hwk (requestedPiece_good (h k (by simp)) hp)

/-- A rule that asks for no piece contributes at no address of the decoded space (R126, R127). -/
theorem contributesAt_of_requestedPiece_none {a : Nat} (ha : a ≤ 0xFFFFFFFF) {k : DecodeRule RF}
    (h : requestedPiece cfg rf k = none) : contributesAt cfg rf a k = none := by
  unfold contributesAt
  cases hc : k.eval cfg rf with
  | none => rfl
  | some c =>
    refine if_neg fun hcov => ?_
    have hp := requestedPiece_eq_some.mpr ⟨c, hc, hcov.1.trans ha, rfl⟩
    exact nomatch h.symm.trans hp

/-- A rule contributes at an address of the decoded space exactly where the piece it asks for covers it (R127, R130). -/
theorem contributesAt_of_requestedPiece_some {a : Nat} (ha : a ≤ 0xFFFFFFFF) {k : DecodeRule RF} {p : Piece RF}
    (h : requestedPiece cfg rf k = some p) :
    contributesAt cfg rf a k = if p.s ≤ a ∧ a ≤ p.e then some (p.rule, p.paint) else none := by
  obtain ⟨c, hc, -, rfl⟩ := requestedPiece_eq_some.mp h
  simp only [contributesAt, hc, le_min_iff, ha, and_true]

/-- One more rule decides where it contributes, and elsewhere the rules before it decide (R124). -/
theorem decidingOver_append (k : DecodeRule RF) (a : Word) :
    decidingOver (rules ++ [k]) cfg rf a = (contributesAt cfg rf a.toNat k).or (decidingOver rules cfg rf a) := by
  unfold decidingOver
  cases h : contributesAt cfg rf a.toNat k <;> simp [h]

/-- After step 2 the piece that covers an address is that of the deciding rule (R124). -/
theorem paintRules_covers (h : rangesOrdered rules cfg rf) (a : Word) (k : DecodeRule RF) (c : Contribution) :
    (∃ q ∈ paintRules cfg rf rules, q.covers a.toNat ∧ q.rule = k ∧ q.paint = c) ↔
      decidingOver rules cfg rf a = some (k, c) := by
  have ha : a.toNat ≤ 0xFFFFFFFF := by omega
  induction rules using List.reverseRecOn with
  | nil => simp [paintRules, decidingOver]
  | append_singleton rules j ih =>
    have hinit : rangesOrdered rules cfg rf := fun i hi => h i (by simp [hi])
    rw [paintRules_append, decidingOver_append]
    cases hp : requestedPiece cfg rf j with
    | none =>
      rw [paintRule_of_none hp, contributesAt_of_requestedPiece_none ha hp, Option.none_or]
      exact ih hinit
    | some p =>
      rw [paintRule_of_some hp, paintOver_covers _ _ _ _ _ fun q hq => (paintRules_good hinit q hq).1,
        contributesAt_of_requestedPiece_some ha hp]
      by_cases hcov : p.s ≤ a.toNat ∧ a.toNat ≤ p.e
      · simp [Piece.covers, hcov]
      · simp only [Piece.covers, hcov, false_and, false_or, not_false_eq_true, true_and, if_false, Option.none_or]
        exact ih hinit

/-! ## Steps 3 and 4: the clamp and the list -/

/-- The clamp takes an address from a rule's contribution: the rule is clamped, the mode RAM-backed, the address at or
above the clamp value (R125). -/
def clampTakes (cl : Nat) (k : DecodeRule RF) (c : Contribution) (a : Nat) : Bool :=
  k.clamp && c.mode.ramBacked && decide (cl ≤ a)

/-- The arbiter's answer is the deciding rule's, where it is not HIDDEN and the clamp does not take it (R124, R125). -/
theorem arbiterOver_eq_some {tomb : RF → Nat} {a : Word} {m : Mode} {o : Word} :
    arbiterOver rules tomb cfg rf a = some (m, o) ↔
      ∃ k c, decidingOver rules cfg rf a = some (k, c) ∧ c.mode ≠ .hidden ∧
        clampTakes (min (tomb rf) cfg.ramSize) k c a.toNat = false ∧
        c.mode = m ∧ BitVec.ofNat 32 (c.backing + (a.toNat - c.start)) = o := by
  unfold arbiterOver
  cases hd : decidingOver rules cfg rf a with
  | none => simp
  | some x =>
    obtain ⟨k, c⟩ := x
    simp [clampTakes]

/-- Where an entry comes from: a piece of the working map, clamped (R128). -/
theorem mem_resolveOver {tomb : RF → Nat} {r : Region} :
    r ∈ resolveOver rules tomb cfg rf ↔
      ∃ p ∈ paintRules cfg rf rules, ∃ q, clampPiece (min (tomb rf) cfg.ramSize) p = some q ∧ q.entry = some r := by
  simp only [resolveOver, List.mem_filterMap, (sortPieces_perm _).mem_iff]
  constructor
  · rintro ⟨q, ⟨p, hp, hq⟩, hr⟩
    exact ⟨p, hp, q, hq, hr⟩
  · rintro ⟨p, hp, q, hq, hr⟩
    exact ⟨q, ⟨p, hp, hq⟩, hr⟩

/-- A clamped piece keeps its start, its rule and its contribution, and covers what the clamp does not take (R125). -/
theorem clampPiece_covers {cl : Nat} {p q : Piece RF} (h : clampPiece cl p = some q) :
    q.s = p.s ∧ q.e ≤ p.e ∧ q.samePaint p ∧
      ∀ a, q.covers a ↔ p.covers a ∧ clampTakes cl p.rule p.paint a = false := by
  rw [clampPiece_eq_some] at h
  unfold clampTakes Piece.covers
  split at h
  · next hc =>
    obtain ⟨hlt, rfl⟩ := h
    refine ⟨rfl, by simp only; omega, ⟨rfl, rfl⟩, fun a => ?_⟩
    simp only [hc, Bool.true_and, decide_eq_false_iff_not]
    omega
  · next hc =>
    subst h
    simp [hc, Piece.samePaint]

/-- A piece survives the clamp when the clamp does not take one of its addresses (R125). -/
theorem exists_clampPiece {cl a : Nat} {p : Piece RF} (hcov : p.covers a)
    (h : clampTakes cl p.rule p.paint a = false) : ∃ q, clampPiece cl p = some q := by
  simp only [clampPiece_eq_some]
  unfold clampTakes at h
  split
  · next hc =>
    simp only [hc, Bool.true_and, decide_eq_false_iff_not] at h
    exact ⟨_, by have := hcov.1; omega, rfl⟩
  · exact ⟨p, rfl⟩

/-- An entry covers the addresses of its piece (R128). -/
theorem Piece.entry_covers {p : Piece RF} {r : Region} (hp : p.s ≤ 0xFFFFFFFF) (he : p.e ≤ 0xFFFFFFFF)
    (h : p.entry = some r) (a : Word) : (r.start ≤ a ∧ a ≤ r.last) ↔ p.covers a.toNat := by
  obtain ⟨-, rfl⟩ := Piece.entry_eq_some.mp h
  simp only [BitVec.le_def, BitVec.toNat_ofNat, Piece.covers, Nat.mod_eq_of_lt (show p.s < 2 ^ 32 by omega),
    Nat.mod_eq_of_lt (show p.e < 2 ^ 32 by omega)]

/-- The offset an entry gives an address of its piece is that of the rule's contribution (R55, R128). -/
theorem Piece.entry_offset {p : Piece RF} {r : Region} {a : Word} (hstart : p.paint.start ≤ p.s) (h : p.entry = some r)
    (hcov : p.covers a.toNat) : r.offset a = BitVec.ofNat 32 (p.paint.backing + (a.toNat - p.paint.start)) := by
  obtain ⟨-, rfl⟩ := Piece.entry_eq_some.mp h
  have hsplit : a.toNat - p.paint.start = (p.s - p.paint.start) + (a.toNat - p.s) := by have := hcov.1; omega
  have hdist : a - BitVec.ofNat 32 p.s = BitVec.ofNat 32 (a.toNat - p.s) := by
    have := hcov.1
    apply BitVec.eq_of_toNat_eq
    simp only [BitVec.toNat_sub, BitVec.toNat_ofNat]
    omega
  simp only [Region.offset, hdist, hsplit, BitVec.ofNat_add]
  rw [← BitVec.add_assoc]

/-- The entries that cover an address give it the arbiter's answer, and there is one wherever the arbiter answers
(R120). -/
theorem exists_entry_iff_arbiterOver {tomb : RF → Nat} (h : rangesOrdered rules cfg rf) (a : Word) (m : Mode) (o : Word) :
    (∃ r ∈ resolveOver rules tomb cfg rf, (r.start ≤ a ∧ a ≤ r.last) ∧ r.mode = m ∧ r.offset a = o) ↔
      arbiterOver rules tomb cfg rf a = some (m, o) := by
  rw [arbiterOver_eq_some]
  constructor
  · rintro ⟨r, hr, hcov, rfl, rfl⟩
    obtain ⟨p, hp, q, hq, hqr⟩ := mem_resolveOver.mp hr
    obtain ⟨hle, hlast, hstart⟩ := paintRules_good h p hp
    obtain ⟨hs, he, ⟨-, hpaint⟩, hqcov⟩ := clampPiece_covers hq
    rw [q.entry_covers (by omega) (by omega) hqr] at hcov
    obtain ⟨hpcov, htake⟩ := (hqcov _).mp hcov
    have hoff := q.entry_offset (by rw [hpaint, hs]; exact hstart) hqr hcov
    obtain ⟨hmode, rfl⟩ := Piece.entry_eq_some.mp hqr
    exact ⟨p.rule, p.paint, (paintRules_covers h a _ _).mp ⟨p, hp, hpcov, rfl, rfl⟩, hpaint ▸ hmode, htake,
      by rw [hpaint], by rw [hoff, hpaint]⟩
  · rintro ⟨k, c, hd, hmode, htake, rfl, rfl⟩
    obtain ⟨p, hp, hpcov, rfl, rfl⟩ := (paintRules_covers h a k c).mpr hd
    obtain ⟨hle, hlast, hstart⟩ := paintRules_good h p hp
    obtain ⟨q, hq⟩ := exists_clampPiece hpcov htake
    obtain ⟨hs, he, ⟨-, hpaint⟩, hqcov⟩ := clampPiece_covers hq
    have hcov := (hqcov _).mpr ⟨hpcov, htake⟩
    have hqr := Piece.entry_eq_some.mpr ⟨by rwa [hpaint], rfl⟩
    exact ⟨_, mem_resolveOver.mpr ⟨p, hp, q, hq, hqr⟩, (q.entry_covers (by omega) (by omega) hqr a).mpr hcov,
      by rw [hpaint], by rw [q.entry_offset (by rw [hpaint, hs]; exact hstart) hqr hcov, hpaint]⟩

/-- The list of the resolver answers every address as the arbiter does (R120, R124, R125, R128). -/
theorem regionAt_resolveOver {tomb : RF → Nat} (h : rangesOrdered rules cfg rf) (a : Word) :
    (regionAt (resolveOver rules tomb cfg rf) a).map (fun r => (r.mode, r.offset a)) =
      arbiterOver rules tomb cfg rf a := by
  cases hr : regionAt (resolveOver rules tomb cfg rf) a with
  | some r =>
    obtain ⟨hmem, hcov⟩ := regionAt_eq_some hr
    exact ((exists_entry_iff_arbiterOver h a _ _).mp ⟨r, hmem, hcov, rfl, rfl⟩).symm
  | none =>
    refine (Option.eq_none_iff_forall_ne_some.mpr fun x hx => ?_).symm
    obtain ⟨r, hmem, hcov, -, -⟩ := (exists_entry_iff_arbiterOver h a x.1 x.2).mpr hx
    exact regionAt_eq_none.mp hr r hmem hcov

end Sys2Proof.Machine

open Sys2Proof.Machine

/-- Settles O20: valid tables contribute ordered ranges, and over such rules the resolver's list answers as the arbiter
does. -/
theorem anyTableMatchesArbiter : Obligations.AnyTableMatchesArbiter :=
  fun _ hv _ rf a hcfg => regionAt_resolveOver (hv.rangesOrdered hcfg rf) a
end

section
/-!
PROOFS. A core constructed from any tables (00_scope.md R5): what its step runs, that every step keeps the installation
the resolver's list (10_state.md R34), its register access and its host operations.
-/
namespace Sys2Proof.Machine

variable {RF : Type} {tables : Tables}

/-! ## Updates written out -/

/-- An answer other than LOOKUP's adds one word to the response stream (R84). -/
theorem State.respondVal_eq (s : State RF) (v : Word) :
    s.respondVal v = { s with responses := s.responses ++ [(0 : BitVec 8) ++ v] } := by
  rw [← plainResponse_pack]; rfl

/-- A store to a register, with the resolver run where the register is decode-relevant (R102, R105). -/
theorem Tables.commitReg_eq (s : State tables.schema.Values) (r : tables.schema.StorageId)
    (v : BitVec (tables.schema.width r)) :
    tables.commitReg s r v =
      if tables.schema.decodeRelevant r = true then
        { s with
          rf := tables.schema.set s.rf r v
          ri := tables.resolve s.cfg (tables.schema.set s.rf r v)
          installer := s.installer ++ installSequence (tables.resolve s.cfg (tables.schema.set s.rf r v)) }
      else { s with rf := tables.schema.set s.rf r v } := rfl

/-- The value a CFGWR stores, bit by bit: a bit of the data where the access mask and the write-mask both select it (R104). -/
theorem Schema.merged_getLsbD {schema : Schema} (rf : schema.Values) (r : schema.StorageId) (data mask : Word) {i : Nat}
    (hi : i < schema.width r) :
    (schema.merged rf r data mask).getLsbD i =
      if mask.getLsbD i && (schema.writeMask r).getLsbD i then data.getLsbD i else (schema.get rf r).getLsbD i := by
  simp only [Schema.merged, operandAt, mergeMasked_getLsbD, BitVec.getLsbD_setWidth, hi, decide_true, Bool.true_and]

/-! ## The step -/

/-- The idle word is a NOP (R100). -/
theorem decode_idle : decode 0 = .ok .nop := rfl

/-- A step on a word that is not reserved runs its transaction (R6). -/
theorem step_of_decode {s : State} {i : Instr} (hcfg : validConfig s.cfg = true) (hi : decode s.nextTxn = .ok i) :
    step s = exec i s.accepted := by
  simp only [step, hcfg, hi, if_true]

/-- A step that answers ran the transaction of a word that is not reserved (R6). -/
theorem Tables.exec_of_step {s t : State tables.schema.Values} (h : tables.step s = .next t) :
    ∃ i, tables.exec i s.accepted = .next t := by
  unfold Tables.step at h
  split at h
  · split at h
    · exact nomatch h
    · next i _ => exact ⟨i, h⟩
  · exact nomatch h

/-! ## The installation is the resolver's list (R34) -/

/-- The installation is what the resolver computes from the registers (R34). -/
def State.derivedBy (tables : Tables) (s : State tables.schema.Values) : Prop := s.ri = tables.resolve s.cfg s.rf

/-- A store to a register that is not decode-relevant leaves the resolver's list (R105, R139 (d)). -/
theorem Tables.resolve_set_of_not_relevant (hl : tables.schema.Lawful) (hv : tables.Valid) {r : tables.schema.StorageId}
    (hr : tables.schema.decodeRelevant r = false) (cfg : Config) (rf : tables.schema.Values)
    (v : BitVec (tables.schema.width r)) : tables.resolve cfg (tables.schema.set rf r v) = tables.resolve cfg rf := by
  have hsame : ∀ q, tables.schema.decodeRelevant q = true →
      tables.schema.get (tables.schema.set rf r v) q = tables.schema.get rf q := by
    intro q hq
    exact hl.get_set_ne rf r q v fun e => by simp [e, hr] at hq
  obtain ⟨htomb, heval⟩ := hv.readsRelevant cfg _ _ hsame
  exact resolveOver_congr (by rw [htomb]) heval

/-- A store to a register keeps the installation the resolver's list (R34, R105). -/
theorem Tables.commitReg_derivedBy (hl : tables.schema.Lawful) (hv : tables.Valid) {s : State tables.schema.Values}
    (h : s.derivedBy tables) (r : tables.schema.StorageId) (v : BitVec (tables.schema.width r)) :
    (tables.commitReg s r v).derivedBy tables := by
  unfold State.derivedBy at h ⊢
  rw [Tables.commitReg_ri, Tables.commitReg_cfg, Tables.commitReg_rf]
  cases hr : tables.schema.decodeRelevant r with
  | true => rfl
  | false => rw [Tables.resolve_set_of_not_relevant hl hv hr, if_neg Bool.false_ne_true, h]

/-- Every transaction keeps the installation the resolver's list (R34). -/
theorem Tables.exec_derivedBy (hl : tables.schema.Lawful) (hv : tables.Valid) {i : Instr}
    {s t : State tables.schema.Values} (h : s.derivedBy tables) (he : tables.exec i s = .next t) : t.derivedBy tables := by
  cases i with
  | cfgrd id =>
    obtain ⟨r, -, rfl⟩ := Tables.cfgrd_eq_next.mp he
    exact h
  | cfgwr id data mask =>
    obtain ⟨c, -, rfl⟩ | ⟨r, -, -, rfl⟩ | ⟨r, -, -, rfl⟩ := Tables.cfgwr_eq_next.mp he
    · exact h
    · exact h
    · exact Tables.commitReg_derivedBy hl hv h r _
  | restore =>
    obtain ⟨-, rfl⟩ := Tables.restore_eq_next.mp he
    rfl
  | reset => cases he; rfl
  | nop => cases he; exact h
  | iord p => cases he; exact h
  | iowr p v => cases he; exact h
  | lookup dir addr => cases he; exact h
  | snapshot => cases he; exact h

/-- Every step keeps the installation the resolver's list (R34). -/
theorem Tables.step_derivedBy (hl : tables.schema.Lawful) (hv : tables.Valid) {s t : State tables.schema.Values}
    (h : s.derivedBy tables) (hs : tables.step s = .next t) : t.derivedBy tables := by
  obtain ⟨i, he⟩ := Tables.exec_of_step hs
  have hacc : s.accepted.derivedBy tables := by
    simpa only [State.derivedBy, State.accepted_ri, State.accepted_cfg, State.accepted_rf] using h
  exact Tables.exec_derivedBy hl hv hacc he

/-! ## EXEMPLAR_NB is lawful and valid (R11, R14, R139, R183) -/

/-- The offset of the register in place `n` of the blob is the size of those before it (R183). -/
theorem blobOffset_getElem : ∀ (n : Nat) (hn : n < storageRegs.length),
    storageRegs[n].blobOffset = ((storageRegs.take n).map exemplarSchema.blobSize).sum := by
  decide

/-- What R11, R14 and R183 ask of the schema EXEMPLAR_NB. -/
theorem exemplarSchema_lawful : exemplarSchema.Lawful where
  widths r := by cases r <;> decide
  constWidths c := by cases c <;> decide
  hasId r := ⟨r.id, regOfId_id r⟩
  idsDistinct _ _ _ hi hj := (id_of_regOfId hi).symm.trans (id_of_regOfId hj)
  get_set := RegFile.get_set_same
  get_set_ne rf _ _ v h := RegFile.get_set_ne rf v h
  get_ofValues := RegFile.get_ofValues
  ext _ _ h := RegFile.ext_get h
  allStored r := by cases r <;> decide
  ascending := by
    have hids : storageRegs.Pairwise fun r q => r.id < q.id := by decide
    refine hids.imp fun {r q} h i j hi hj => ?_
    rw [← id_of_regOfId hi, ← id_of_regOfId hj]
    exact h
  offsets before after r h := by
    have hn : before.length < storageRegs.length := by simp [show storageRegs = before ++ r :: after from h]
    have hoff := blobOffset_getElem before.length hn
    simpa [show storageRegs = before ++ r :: after from h] using hoff

/-- The rules of EXEMPLAR_NB stand in the order of their indices (R131). -/
theorem exemplarRules_ordered : exemplarRules.Pairwise fun j k => j.index < k.index :=
  List.pairwise_map.mpr (by decide : ruleTable.Pairwise fun j k => j.index < k.index)

/-- The registers as the Decode Rules see them: those that are not decode-relevant, LOCKCTL and SCRATCH, are blanked. -/
def RegFile.decodeView (rf : RegFile) : RegFile := { rf with lockctl := 0, scratch := 0 }

theorem RegFile.get_decodeView (rf : RegFile) (r : StorageReg) :
    rf.decodeView.get r = if r.decodeRelevant then rf.get r else 0 := by
  cases r <;> rfl

/-- Register files that agree on the decode-relevant registers look alike to the rules (R27). -/
theorem RegFile.decodeView_congr {rf rf' : RegFile} (h : ∀ r, r.decodeRelevant = true → rf.get r = rf'.get r) :
    rf.decodeView = rf'.decodeView := by
  apply RegFile.ext_get
  intro r
  rw [RegFile.get_decodeView, RegFile.get_decodeView]
  split
  · next hr => exact h r hr
  · rfl

theorem RegFile.tomb_decodeView (rf : RegFile) : rf.decodeView.tomb = rf.tomb := rfl

theorem RegFile.mainTop_decodeView (rf : RegFile) : rf.decodeView.mainTop = rf.mainTop := rfl

theorem RegFile.apBytes_decodeView (rf : RegFile) : rf.decodeView.apBytes = rf.apBytes := rfl

/-- No rule reads a register that is not decode-relevant (R139 (d)). -/
theorem RuleName.eval_decodeView (n : RuleName) (cfg : Config) (rf : RegFile) :
    n.eval cfg rf.decodeView = n.eval cfg rf := by
  cases n with
  | lowram => rfl
  | vidram => rfl
  | pam j => rfl
  | mainram =>
    simp only [RuleName.eval, RegFile.mainTop_decodeView]
    rfl
  | xsmram => rfl
  | aperture =>
    simp only [RuleName.eval, RegFile.apBytes_decodeView]
    rfl

/-- The aperture is not empty and at most 256 MiB (R132). -/
theorem RegFile.apBytes_bounds (rf : RegFile) : 0 < rf.apBytes ∧ rf.apBytes ≤ 0x10000000 := by
  have hcode : rf.apCode ≤ 6 := Nat.min_le_right _ _
  rw [RegFile.apBytes, Nat.shiftLeft_eq]
  have hpos : 0 < 2 ^ rf.apCode := Nat.two_pow_pos _
  have hpow : 2 ^ rf.apCode ≤ 2 ^ 6 := Nat.pow_le_pow_right two_pos hcode
  omega

/-- The top of main memory is below 4 GiB (R19, R132). -/
theorem RegFile.mainTop_lt (rf : RegFile) : rf.mainTop < 2 ^ 32 := by
  have htop : rf.topMb.toNat < 2 ^ 12 := rf.topMb.isLt
  have htomb : rf.tomb = rf.topMb.toNat * 2 ^ 20 := Nat.shiftLeft_eq _ _
  have hle : rf.mainTop ≤ rf.tomb := Nat.sub_le _ _
  omega

/-- Under valid parameters a rule contributes a range with start ≤ end whose backing stays below 4 GiB (R139 (b), (c)). -/
theorem RuleName.eval_inRange {cfg : Config} (hcfg : validConfig cfg = true) {rf : RegFile} {n : RuleName}
    {c : Contribution} (h : n.eval cfg rf = some c) :
    c.start ≤ c.last ∧ c.backing + (c.last - c.start) ≤ 0xFFFFFFFF := by
  cases n with
  | lowram =>
    obtain ⟨-, ⟨⟩⟩ := Option.ite_none_right_eq_some.mp h
    decide
  | vidram =>
    obtain ⟨-, ⟨⟩⟩ := Option.ite_none_right_eq_some.mp h
    decide
  | pam j =>
    cases h
    have hj := j.isLt
    simp only [pamStart]
    omega
  | mainram =>
    obtain ⟨htop, ⟨⟩⟩ := Option.ite_none_right_eq_some.mp h
    have hlt := rf.mainTop_lt
    simp only
    omega
  | xsmram =>
    obtain ⟨-, ⟨⟩⟩ := Option.ite_none_right_eq_some.mp h
    simp only [validConfig, Bool.and_eq_true, decide_eq_true_eq] at hcfg
    obtain ⟨⟨-, hbacking⟩, -⟩ := hcfg
    simp only
    omega
  | aperture =>
    obtain ⟨-, ⟨⟩⟩ := Option.ite_none_right_eq_some.mp h
    obtain ⟨hpos, hle⟩ := rf.apBytes_bounds
    simp only
    omega

/-- EXEMPLAR_NB is valid (R139), and its top-of-memory value reads TOM only (R132). -/
theorem exemplarNb_valid : exemplarNb.Valid where
  orderTotal := exemplarRules_ordered
  inRange _ _ _ _ hcfg hk hc := by
    obtain ⟨n, -, rfl⟩ := mem_exemplarRules.mp hk
    exact RuleName.eval_inRange hcfg hc
  readsRelevant cfg rf rf' h := by
    have hview := RegFile.decodeView_congr h
    refine ⟨?_, fun k hk => ?_⟩
    · calc rf.tomb = rf.decodeView.tomb := rf.tomb_decodeView.symm
        _ = rf'.decodeView.tomb := by rw [hview]
        _ = rf'.tomb := rf'.tomb_decodeView
    · obtain ⟨n, -, rfl⟩ := mem_exemplarRules.mp hk
      calc n.eval cfg rf = n.eval cfg rf.decodeView := (n.eval_decodeView cfg rf).symm
        _ = n.eval cfg rf'.decodeView := by rw [hview]
        _ = n.eval cfg rf' := n.eval_decodeView cfg rf'

/-! ## The host operations (R180 to R183) -/

/-- SNAPSHOT puts the blob of RF and CP on the port and answers 0 (R181). -/
theorem Tables.snapshot_eq (s : State tables.schema.Values) :
    tables.snapshot s = .next
      { s with
        blobsOut := s.blobsOut ++ [tables.schema.snapshotBlob s.rf s.cp]
        responses := s.responses ++ [0] } := by
  rw [Tables.snapshot, State.respondVal_eq]
  rfl

/-- RESTORE of a blob made from registers and a port loads these, where the reserved bits hold their reset value and the
bank is canonical (R182). -/
theorem Tables.restore_snapshotBlob (hl : tables.schema.Lawful) {rf : tables.schema.Values} {cp : ConfigPort}
    {w : State tables.schema.Values} (hblob : w.blobPort = tables.schema.snapshotBlob rf cp)
    (hres : ∀ r, tables.schema.get rf r &&& ~~~tables.schema.writeMask r =
      tables.schema.resetValue w.cfg r &&& ~~~tables.schema.writeMask r) (hbank : cp.bank.wf = true) :
    tables.restore w = .next
      { w with
        rf := rf
        cp := cp
        ri := tables.resolve w.cfg rf
        installer := w.installer ++ installSequence (tables.resolve w.cfg rf) } := by
  have hlen : w.blobPort.length = tables.schema.blobLength := by rw [hblob, Schema.snapshotBlob_length]
  have hrf : tables.schema.restoredValues w.cfg w.blobPort = rf := by
    rw [hblob, Schema.restoredValues_snapshotBlob hl cp hres]
  have hcp : restoredPort w.blobPort tables.schema.blobRegBytes = cp := by rw [hblob, restoredPort_snapshotBlob rf hbank]
  rw [Tables.restore, if_pos hlen, hrf, hcp]
  rfl

end Sys2Proof.Machine

open Sys2Proof Sys2Proof.Machine

/-- Settles O50: every transaction keeps the installation the resolver's list, by cases on the transaction; the store to
a register that is not decode-relevant is the one case that needs valid tables. -/
theorem anyTableKeepsDerivedInstallation : Obligations.AnyTableKeepsDerivedInstallation :=
  ⟨step_exemplarNb, fun _ hl hv _ _ h hs => Tables.step_derivedBy hl hv h hs⟩

/-- Settles O51: the schema's laws from the table of R14, the rules' from R131 to R138, and the machine is this core arm
by arm. -/
theorem exemplarIsLawful : Obligations.ExemplarIsLawful :=
  ⟨exemplarSchema_lawful, exemplarNb_valid, exec_exemplarNb⟩

/-- Settles O52: the equations of CFGRD and CFGWR on a register of each kind, the stored value by the merge law. -/
theorem anySchemaRegisterAccess : Obligations.AnySchemaRegisterAccess := by
  intro tables hl s id data mask
  refine ⟨fun hid => ?_, fun c hid => ?_, fun r hid => ⟨?_, fun hlock => ?_, fun hlock => ?_⟩⟩
  · simp only [Tables.exec, Tables.cfgrd, Tables.cfgwr, hid, and_self]
  · exact ⟨Tables.cfgrd_eq_next.mpr ⟨_, hid, (State.respondVal_eq ..).symm⟩, Tables.cfgwr_eq_next.mpr (.inl ⟨c, hid, rfl⟩)⟩
  · exact Tables.cfgrd_eq_next.mpr ⟨_, hid, (State.respondVal_eq ..).symm⟩
  · exact Tables.cfgwr_eq_next.mpr (.inr (.inl ⟨r, hid, hlock, rfl⟩))
  · refine ⟨tables.schema.set s.rf r (tables.schema.merged s.rf r data mask), fun i hi => ?_,
      fun q hq => hl.get_set_ne _ _ _ _ hq,
      Tables.cfgwr_eq_next.mpr (.inr (.inr ⟨r, hid, hlock, (Tables.commitReg_eq ..).symm⟩))⟩
    rw [hl.get_set, Schema.merged_getLsbD _ _ _ _ hi]

/-- Settles O53: RESET loads the schema's reset values; SNAPSHOT's blob gives registers and port back (the round trip of
Laws/Blob). -/
theorem anySchemaHostOperations : Obligations.AnySchemaHostOperations := by
  intro tables hl s
  refine ⟨⟨tables.schema.resetValues s.cfg, hl.get_ofValues _, rfl⟩,
    tables.schema.snapshotBlob s.rf s.cp, Schema.snapshotBlob_length _ _, Tables.snapshot_eq s, ?_⟩
  intro hres hbank w hcfg hblob
  rw [← hcfg] at hres ⊢
  exact Tables.restore_snapshotBlob hl hblob hres hbank

/-- Settles O5: a request waiting gives its own word and blob, no request the idle word. -/
theorem stepRunsDecodedTransaction : Obligations.StepRunsDecodedTransaction := by
  refine ⟨fun s r rs i hcfg hreq hi => ?_, fun s hcfg hreq => ?_⟩
  · rw [← State.accepted_of_cons hreq]
    exact step_of_decode hcfg (by rw [State.nextTxn_of_cons hreq, hi])
  · have hidle : decode s.nextTxn = .ok .nop := by rw [State.nextTxn_of_nil hreq, decode_idle]
    rw [step_of_decode hcfg hidle, State.accepted_of_nil hreq]
    rfl
end

section
/-!
PROOFS. What a transaction of EXEMPLAR_NB can do, once for all nine (00_scope.md R6), and what it leaves: the parameters
and the inputs, the histories it extends, the registers and the cells it does not reach, R12 and the bank's canonical form.
-/
namespace Sys2Proof.Machine

/-- The ways a transaction completes, with the state each leaves; a CFGWR is discarded or stores (R103, R192). -/
inductive Completes : Instr → State → State → Prop where
  | nop {s : State} : Completes .nop s s
  | cfgrd {s : State} {id : Byte} {r : Reg} (hid : regOfId id = some r) :
      Completes (.cfgrd id) s (s.respondVal (s.rf.readReg s.cfg r))
  | constDiscarded {s : State} {id : Byte} {data mask : Word} {c : ConstReg} (hid : regOfId id = some (.const c)) :
      Completes (.cfgwr id data mask) s s
  | lockedDiscarded {s : State} {id : Byte} {data mask : Word} {r : StorageReg} (hid : regOfId id = some (.storage r))
      (hlock : s.rf.locked r = true) : Completes (.cfgwr id data mask) s s
  | stored {s : State} {id : Byte} {data mask : Word} {r : StorageReg} (hid : regOfId id = some (.storage r))
      (hlock : s.rf.locked r = false) :
      Completes (.cfgwr id data mask) s (s.commitReg r (s.rf.merged r data mask))
  | iord {s : State} {p : Port} : Completes (.iord p) s (s.respondVal ((s.cp.readPort p).setWidth 32))
  | iowr {s : State} {p : Port} {v : Byte} : Completes (.iowr p v) s (s.withCp (s.cp.write s.cfg p v))
  | lookup {s : State} {dir : Dir} {a : Word} : Completes (.lookup dir a) s (s.respond (lookupResponse s.ri dir a))
  | reset {s : State} :
      Completes .reset s ((s.withRf (resetRegFile s.cfg)).withCp (resetConfigPort s.cfg)).runResolver
  | snapshot {s : State} : Completes .snapshot s ((s.putBlob (snapshotBlob s.rf s.cp)).respondVal 0)
  | restore {s : State} (hlen : s.blobPort.length = blobLength) :
      Completes .restore s
        ((s.withRf (restoredRf s.cfg s.blobPort)).withCp (restoredCp s.blobPort)).runResolver

/-- `Completes` is what exec answers. -/
theorem exec_eq_next {i : Instr} {s t : State} : exec i s = .next t ↔ Completes i s t := by
  constructor
  · intro h
    cases i with
    | cfgrd id =>
      obtain ⟨r, hid, rfl⟩ := execCfgrd_eq_next.mp h
      exact .cfgrd hid
    | cfgwr id data mask =>
      obtain ⟨c, hid, rfl⟩ | ⟨r, hid, hlock, rfl⟩ | ⟨r, hid, hlock, rfl⟩ := execCfgwr_eq_next.mp h
      · exact .constDiscarded hid
      · exact .lockedDiscarded hid hlock
      · exact .stored hid hlock
    | restore =>
      obtain ⟨hlen, rfl⟩ := execRestore_eq_next.mp h
      exact .restore hlen
    | nop => cases h; exact .nop
    | iord p => cases h; exact .iord
    | iowr p v => cases h; exact .iowr
    | lookup dir a => cases h; exact .lookup
    | reset => cases h; exact .reset
    | snapshot => cases h; exact .snapshot
  · intro h
    cases h with
    | cfgrd hid => exact execCfgrd_eq_next.mpr ⟨_, hid, rfl⟩
    | constDiscarded hid => exact execCfgwr_eq_next.mpr (.inl ⟨_, hid, rfl⟩)
    | lockedDiscarded hid hlock => exact execCfgwr_eq_next.mpr (.inr (.inl ⟨_, hid, hlock, rfl⟩))
    | stored hid hlock => exact execCfgwr_eq_next.mpr (.inr (.inr ⟨_, hid, hlock, rfl⟩))
    | restore hlen => exact execRestore_eq_next.mpr ⟨hlen, rfl⟩
    | nop | iord | iowr | lookup | reset | snapshot => rfl

/-- A byte answers zero-extended: the response word is the byte below 32 zero bits (R84, R162). -/
theorem zero_append_setWidth_byte (v : Byte) : (0 : BitVec 8) ++ v.setWidth 32 = (0 : BitVec 32) ++ v := by
  have hleft : ((0 : BitVec 8) ++ v.setWidth 32).toNat = v.toNat := by
    rw [BitVec.toNat_append, BitVec.toNat_setWidth_of_le (by decide)]
    simp
  have hright : ((0 : BitVec 32) ++ v).toNat = v.toNat := by
    rw [BitVec.toNat_append]
    simp
  exact BitVec.eq_of_toNat_eq (hleft.trans hright.symm)

/-- A step that answers ran one transaction to its end (R6). -/
theorem completes_of_step {s t : State} (h : step s = .next t) : ∃ i, Completes i s.accepted t := by
  rw [← step_exemplarNb] at h
  obtain ⟨i, hi⟩ := Tables.exec_of_step h
  exact ⟨i, exec_eq_next.mp (exec_exemplarNb i s.accepted ▸ hi)⟩

section

variable {i : Instr} {s t : State}

/-! ## The parameters, the inputs and the histories (R35, R40, R82) -/

theorem Completes.cfg_eq (h : Completes i s t) : t.cfg = s.cfg := by cases h <;> simp

theorem Completes.requests_eq (h : Completes i s t) : t.requests = s.requests := by cases h <;> simp

theorem Completes.blobPort_eq (h : Completes i s t) : t.blobPort = s.blobPort := by cases h <;> simp

/-- No transaction takes a command back from the installer stream (R35). -/
theorem Completes.installer_grows (h : Completes i s t) : ∃ sent, t.installer = s.installer ++ sent := by
  cases h with
  | stored => exact ⟨_, State.commitReg_installer ..⟩
  | reset | restore => exact ⟨_, rfl⟩
  | nop | cfgrd | constDiscarded | lockedDiscarded | iord | iowr | lookup | snapshot => exact ⟨[], by simp⟩

/-- A transaction that answers adds one response, any other none (R35, R82). -/
theorem Completes.responses_grow (h : Completes i s t) :
    ∃ answer, t.responses = s.responses ++ answer ∧ answer.length = if responds i then 1 else 0 := by
  cases h with
  | cfgrd | iord | lookup | snapshot => exact ⟨[_], rfl, rfl⟩
  | nop | constDiscarded | lockedDiscarded | stored | iowr | reset | restore => exact ⟨[], by simp, rfl⟩

/-- SNAPSHOT adds one blob, any other transaction none (R181). -/
theorem Completes.blobsOut_grow (h : Completes i s t) :
    ∃ out, t.blobsOut = s.blobsOut ++ out ∧ out.length = if i = .snapshot then 1 else 0 := by
  cases h with
  | snapshot => exact ⟨[_], rfl, rfl⟩
  | nop | cfgrd | constDiscarded | lockedDiscarded | stored | iord | iowr | lookup | reset | restore =>
    exact ⟨[], by simp, rfl⟩

/-! ## The registers (R12, R26, R38) -/

/-- The registers change by a CFGWR, by RESET and by RESTORE only (R38). -/
theorem Completes.rf_eq_or (h : Completes i s t) :
    t.rf = s.rf ∨ (∃ id data mask, i = .cfgwr id data mask) ∨ i = .reset ∨ i = .restore := by
  cases h with
  | constDiscarded | lockedDiscarded | stored => exact .inr (.inl ⟨_, _, _, rfl⟩)
  | reset => exact .inr (.inr (.inl rfl))
  | restore => exact .inr (.inr (.inr rfl))
  | nop | cfgrd | iord | iowr | lookup | snapshot => exact .inl rfl

/-- A locked register keeps its value through every transaction but RESET and RESTORE (R26, R199): a store that commits
went to a register that is not locked. -/
theorem Completes.get_of_locked (h : Completes i s t) (hreset : i ≠ .reset) (hrestore : i ≠ .restore) {q : StorageReg}
    (hq : s.rf.locked q = true) : t.rf.get q = s.rf.get q := by
  cases h with
  | @stored _ _ _ _ r hid hlock =>
    have hne : q ≠ r := by
      rintro rfl
      exact Bool.false_ne_true (hlock.symm.trans hq)
    rw [State.commitReg_rf, RegFile.get_set_ne _ _ hne]
  | reset => exact absurd rfl hreset
  | restore => exact absurd rfl hrestore
  | nop | cfgrd | constDiscarded | lockedDiscarded | iord | iowr | lookup | snapshot => rfl

/-- The reset values meet R12. -/
theorem resetRegFile_reservedKept (cfg : Config) : (resetRegFile cfg).reservedKept cfg :=
  fun r => congrArg (· &&& ~~~r.writeMask) (RegFile.get_ofValues (fun q => q.resetValue cfg) r)

/-- What a RESTORE loads meets R12 (R182). -/
theorem restoredRf_reservedKept (cfg : Config) (b : Blob) : (restoredRf cfg b).reservedKept cfg := by
  intro r
  have hget : (restoredRf cfg b).get r = sanitise (blobReg b r) r.writeMask (r.resetValue cfg) :=
    RegFile.get_ofValues (fun q => sanitise (blobReg b q) q.writeMask (q.resetValue cfg)) r
  rw [hget, sanitise_reserved]

/-- A merged store keeps R12: the merge stays inside the write-mask (R104). -/
theorem RegFile.reservedKept_set_merged {cfg : Config} {rf : RegFile} (h : rf.reservedKept cfg) (r : StorageReg)
    (data mask : Word) : (rf.set r (rf.merged r data mask)).reservedKept cfg := by
  intro q
  by_cases hq : q = r
  · subst hq
    have hmerge : rf.merged q data mask &&& ~~~q.writeMask = rf.get q &&& ~~~q.writeMask := mergeMasked_reserved ..
    rw [RegFile.get_set_same, hmerge]
    exact h q
  · rw [RegFile.get_set_ne _ _ hq]
    exact h q

/-- Every transaction keeps R12. -/
theorem Completes.reservedKept (h : Completes i s t) (hs : s.rf.reservedKept s.cfg) : t.rf.reservedKept t.cfg := by
  rw [h.cfg_eq]
  cases h with
  | stored =>
    rw [State.commitReg_rf]
    exact RegFile.reservedKept_set_merged hs _ _ _
  | reset => exact resetRegFile_reservedKept s.cfg
  | restore => exact restoredRf_reservedKept s.cfg s.blobPort
  | nop | cfgrd | constDiscarded | lockedDiscarded | iord | iowr | lookup | snapshot => exact hs

/-! ## The configuration port (R31, R38, R163) -/

/-- The port changes by an IOWR, by RESET and by RESTORE only (R38). -/
theorem Completes.cp_eq_or (h : Completes i s t) :
    t.cp = s.cp ∨ (∃ p v, i = .iowr p v) ∨ i = .reset ∨ i = .restore := by
  cases h with
  | stored => exact .inl (State.commitReg_cp ..)
  | iowr => exact .inr (.inl ⟨_, _, rfl⟩)
  | reset => exact .inr (.inr (.inl rfl))
  | restore => exact .inr (.inr (.inr rfl))
  | nop | cfgrd | constDiscarded | lockedDiscarded | iord | lookup | snapshot => exact .inl rfl

/-- A port write changes no cell but the one a data access reaches (R163). -/
theorem ConfigPort.read_write_of_ne_cell (cfg : Config) (cp : ConfigPort) (p : Port) (v : Byte) {a : Nat}
    (ha : a ≠ cp.cell) : (cp.write cfg p v).bank.read a = cp.bank.read a := by
  cases hl : cp.locked
  · cases p
    · rw [ConfigPort.write_index_unlocked hl]; split <;> rfl
    · rw [ConfigPort.write_data_unlocked hl]; exact Memory.read_write_ne _ v ha
  · rw [ConfigPort.write_locked hl]; split <;> rfl

/-- In the shared sub-range a data access reaches device 0, so no cell of another device (R31, R163). -/
theorem ConfigPort.cell_ne_of_shared (cp : ConfigPort) {d : BitVec 4} {x : Byte} (hd : d ≠ 0) (hx : x ≤ sharedMax) :
    cellAddress d x ≠ cp.cell := by
  intro h
  obtain ⟨hdev, rfl⟩ := cellAddress_inj h
  exact hd (hdev.trans (if_pos hx))

/-- Every transaction keeps the canonical form of the bank (log 8). -/
theorem Completes.bank_wf (h : Completes i s t) (hcfg : validConfig s.cfg = true) (hs : s.cp.bank.wf = true) :
    t.cp.bank.wf = true := by
  cases h with
  | stored =>
    rw [State.commitReg_cp]
    exact hs
  | iowr => exact ConfigPort.write_bank_wf hs ..
  | reset => exact resetConfigPort_bank_wf hcfg
  | restore hlen => exact restoredCp_bank_wf hlen
  | nop | cfgrd | constDiscarded | lockedDiscarded | iord | lookup | snapshot => exact hs

/-! ## The invariants together (R12, R34, R139) -/

/-- Every transaction keeps the installation of EXEMPLAR_NB the resolver's list (R34). -/
theorem Completes.derived (h : Completes i s t) (hs : s.ri = resolve s.cfg s.rf) : t.ri = resolve t.cfg t.rf :=
  Tables.exec_derivedBy exemplarSchema_lawful exemplarNb_valid hs ((exec_exemplarNb i s).trans (exec_eq_next.mpr h))

/-- Every transaction keeps the invariants. -/
theorem Completes.inv (h : Completes i s t) (hs : s.Inv) : t.Inv where
  paramsValid := h.cfg_eq ▸ hs.paramsValid
  reservedKept := h.reservedKept hs.reservedKept
  bankWf := h.bank_wf hs.paramsValid hs.bankWf
  derived := h.derived hs.derived

/-- Taking a request off the interface keeps the invariants (R80). -/
theorem State.Inv.accepted (h : s.Inv) : s.accepted.Inv where
  paramsValid := by simpa using h.paramsValid
  reservedKept := by simpa using h.reservedKept
  bankWf := by simpa using h.bankWf
  derived := by simpa using h.derived

end

end Sys2Proof.Machine
end

section
/-!
PROOFS. The list the resolver makes is ordered (10_state.md R33): painting keeps the pieces disjoint, the clamp only
shortens them, the sort puts them in order of their starts, and the emission leaves the HIDDEN ones out.
-/
namespace Sys2Proof.Machine

section

variable {RF : Type} {cfg : Config} {rf : RF} {rules : List (DecodeRule RF)}

/-- After step 2 no address lies in two pieces (R124). -/
theorem paintRules_disjoint (h : rangesOrdered rules cfg rf) : (paintRules cfg rf rules).Pairwise Piece.disjoint := by
  induction rules using List.reverseRecOn with
  | nil => exact List.Pairwise.nil
  | append_singleton rules k ih =>
    have hinit : rangesOrdered rules cfg rf := fun j hj => h j (by simp [hj])
    rw [paintRules_append]
    cases hp : requestedPiece cfg rf k with
    | none =>
      rw [paintRule_of_none hp]
      exact ih hinit
    | some p =>
      rw [paintRule_of_some hp]
      exact paintOver_pairwise (paintRules_good hinit) (requestedPiece_good (h k (by simp)) hp) (ih hinit)

/-- What the clamp leaves of a good piece is a good piece (R125). -/
theorem clampPiece_good {cl : Nat} {p q : Piece RF} (hp : p.good) (h : clampPiece cl p = some q) : q.good := by
  obtain ⟨hle, hlast, hstart⟩ := hp
  rw [clampPiece_eq_some] at h
  split at h
  · obtain ⟨hlt, rfl⟩ := h
    exact ⟨by simp only; omega, by simp only; omega, hstart⟩
  · subst h
    exact ⟨hle, hlast, hstart⟩

/-- The clamp keeps disjoint pieces disjoint (R125). -/
theorem filterMap_clampPiece_disjoint (cl : Nat) {wk : List (Piece RF)} (h : wk.Pairwise Piece.disjoint) :
    (wk.filterMap (clampPiece cl)).Pairwise Piece.disjoint := by
  rw [List.pairwise_filterMap]
  refine h.imp fun {p q} hpq p' hp q' hq => ?_
  obtain ⟨hps, hpe, -⟩ := clampPiece_covers hp
  obtain ⟨hqs, hqe, -⟩ := clampPiece_covers hq
  unfold Piece.disjoint at hpq ⊢
  omega

/-- Disjoint pieces, sorted, lie one wholly before the other (R128). -/
theorem sortPieces_before {l : List (Piece RF)} (hgood : ∀ p ∈ l, p.good) (h : l.Pairwise Piece.disjoint) :
    (sortPieces l).Pairwise fun p q => p.e < q.s := by
  have hperm := sortPieces_perm l
  have hdisj : (sortPieces l).Pairwise Piece.disjoint :=
    (hperm.pairwise_iff fun {p q} hpq => Or.symm hpq).mpr h
  refine ((sortPieces_sorted l).and hdisj).imp_of_mem ?_
  rintro p q hp hq ⟨hsorted, hpq⟩
  obtain ⟨hple, -, -⟩ := hgood p (hperm.mem_iff.mp hp)
  obtain ⟨hqle, -, -⟩ := hgood q (hperm.mem_iff.mp hq)
  unfold Piece.disjoint at hpq
  omega

/-- An entry has the bounds of its piece, since a good piece lies below 4 GiB, and is not HIDDEN (R128). -/
theorem Piece.entry_of_good {p : Piece RF} {r : Region} (hp : p.good) (h : p.entry = some r) :
    r.start.toNat = p.s ∧ r.last.toNat = p.e ∧ r.mode ≠ .hidden := by
  obtain ⟨hle, hlast, -⟩ := hp
  obtain ⟨hmode, rfl⟩ := Piece.entry_eq_some.mp h
  exact ⟨Nat.mod_eq_of_lt (by omega), Nat.mod_eq_of_lt (by omega), hmode⟩

/-- Over rules that contribute ordered ranges the resolver's list is ordered (R33). -/
theorem resolveOver_ordered (tomb : RF → Nat) (h : rangesOrdered rules cfg rf) :
    regionsOrdered (resolveOver rules tomb cfg rf) := by
  have hgood : ∀ p ∈ (paintRules cfg rf rules).filterMap (clampPiece (min (tomb rf) cfg.ramSize)), p.good := by
    intro q hq
    obtain ⟨p, hp, hpq⟩ := List.mem_filterMap.mp hq
    exact clampPiece_good (paintRules_good h p hp) hpq
  have hsorted := sortPieces_before hgood (filterMap_clampPiece_disjoint _ (paintRules_disjoint h))
  have hgood' := fun p hp => hgood p ((sortPieces_perm _).mem_iff.mp hp)
  unfold resolveOver
  constructor
  · intro r hr
    obtain ⟨p, hp, hpr⟩ := List.mem_filterMap.mp hr
    obtain ⟨hs, he, hmode⟩ := Piece.entry_of_good (hgood' p hp) hpr
    obtain ⟨hle, -, -⟩ := hgood' p hp
    exact ⟨by rwa [BitVec.le_def, hs, he], hmode⟩
  · rw [List.pairwise_filterMap]
    refine hsorted.imp_of_mem fun {p q} hp hq hpq r hr r' hr' => ?_
    obtain ⟨-, he, -⟩ := Piece.entry_of_good (hgood' p hp) hr
    obtain ⟨hs, -, -⟩ := Piece.entry_of_good (hgood' q hq) hr'
    rwa [BitVec.lt_def, he, hs]

end

/-- Every rule of EXEMPLAR_NB contributes a range with start ≤ end, whatever the parameters (R139 (b)). -/
theorem RuleName.eval_start_le_last {cfg : Config} {rf : RegFile} {n : RuleName} {c : Contribution}
    (h : n.eval cfg rf = some c) : c.start ≤ c.last := by
  cases n with
  | pam j =>
    cases h
    exact Nat.le_add_right _ _
  | mainram =>
    obtain ⟨htop, ⟨⟩⟩ := Option.ite_none_right_eq_some.mp h
    exact Nat.le_sub_one_of_lt htop
  | aperture =>
    obtain ⟨-, ⟨⟩⟩ := Option.ite_none_right_eq_some.mp h
    have hpos := rf.apBytes_bounds.1
    simp only
    omega
  | lowram | vidram | xsmram =>
    obtain ⟨-, ⟨⟩⟩ := Option.ite_none_right_eq_some.mp h
    simp only
    decide

theorem exemplarRules_rangesOrdered (cfg : Config) (rf : RegFile) : rangesOrdered exemplarRules cfg rf := by
  intro k hk c hc
  obtain ⟨n, -, rfl⟩ := mem_exemplarRules.mp hk
  exact RuleName.eval_start_le_last hc

/-- The resolver's list of EXEMPLAR_NB is ordered, for all registers and parameters (R33). -/
theorem resolve_ordered (cfg : Config) (rf : RegFile) : regionsOrdered (resolve cfg rf) :=
  resolveOver_ordered RegFile.tomb (exemplarRules_rangesOrdered cfg rf)

/-- The resolver's list at the reset values and the default parameters (R210). -/
theorem resolve_resetRegFile_default : resolve Config.default (resetRegFile Config.default) = resetRegions := by
  decide +kernel

/-- An address no entry covers answers as HIDDEN (R33, R141). -/
theorem lookupResponse_mode_of_uncovered {ri : List Region} {a : Word} (h : ∀ r ∈ ri, ¬ (r.start ≤ a ∧ a ≤ r.last))
    (dir : Dir) : (lookupResponse ri dir a).mode = .hidden := by
  simp only [lookupResponse, regionAt_eq_none.mpr h]

end Sys2Proof.Machine

open Sys2Proof Sys2Proof.Machine

/-- Settles O54: the transaction of the step keeps each invariant, and the installation it leaves is the resolver's
list. -/
theorem stepKeepsInvariants : Obligations.StepKeepsInvariants := by
  intro s t hs h
  obtain ⟨i, hi⟩ := completes_of_step h
  have ht : t.Inv := hi.inv hs.accepted
  exact ⟨ht, ht.derived ▸ resolve_ordered t.cfg t.rf, hi.cfg_eq.trans s.accepted_cfg⟩

/-- Settles O21: the order of the resolver's list, for all registers and parameters. -/
theorem installationOrdered : Obligations.InstallationOrdered := by
  intro cfg rf
  obtain ⟨hproper, hsorted⟩ := resolve_ordered cfg rf
  exact ⟨hproper, hsorted, fun dir _ ha => lookupResponse_mode_of_uncovered ha dir⟩
end

section
/-!
PROOFS. The state (10_state.md): what is frozen, inert or kept, the histories, the table of the registers, the reset.
-/
open Sys2Proof Sys2Proof.Machine

/-- Settles O15: each of these registers is locked by the bit its premise names, and a locked register keeps its value. -/
theorem frozenUntilResetOrRestore : Obligations.FrozenUntilResetOrRestore := by
  intro i s t hreset hrestore h
  have frozen : ∀ r, s.rf.lockBitSet r = true → t.rf.get r = s.rf.get r := fun r hr =>
    (exec_eq_next.mp h).get_of_locked hreset hrestore ((s.rf.locked_eq_lockBitSet r).trans hr)
  refine ⟨fun hlck => ⟨frozen .lockctl hlck, fun hpam => ?_, fun hmem => frozen .tom hmem, fun hap => ?_⟩, fun hd => ?_⟩
  · exact ⟨frozen .pam1 hpam, frozen .pam2 hpam, frozen .pam3 hpam, frozen .pam4 hpam, frozen .pam5 hpam,
      frozen .pam6 hpam, frozen .pam7 hpam⟩
  · exact ⟨frozen .apbase hap, frozen .apsize hap⟩
  · exact ⟨frozen .smramc hd, frozen .esmramc hd⟩

/-- Settles O36: a write while LOCKED is the unlock write, which turns `locked` and may latch the index, or leaves the
port as it was. -/
theorem lockedPortIsInert : Obligations.LockedPortIsInert := by
  intro s t p v hlocked h
  cases exec_eq_next.mp h
  have hdata : exec (.iord .data) s = .next { s with responses := s.responses ++ [0] } := by
    rw [exec_eq_next.mpr .iord, State.respondVal_eq]
    simp [ConfigPort.readPort, hlocked]
  have hindex : exec (.iord .index) s = .next { s with responses := s.responses ++ [(0 : BitVec 32) ++ s.cp.idx] } := by
    rw [exec_eq_next.mpr .iord, State.respondVal_eq, zero_append_setWidth_byte]
    rfl
  rw [ConfigPort.write_locked hlocked]
  by_cases hkey : p = .index ∧ v = s.cfg.unlockByte
  · rw [if_pos hkey]
    refine ⟨fun hn => absurd hkey hn, rfl, rfl, rfl, fun hlatch => ?_, ?_, hindex, hdata⟩
    · simp [ConfigPort.key, hlatch]
    · simp [ConfigPort.key, hkey]
  · rw [if_neg hkey]
    refine ⟨fun _ => rfl, rfl, rfl, rfl, fun _ => rfl, ?_, hindex, hdata⟩
    simp [hlocked, hkey]

/-- Settles O39: a port write reaches one cell, in the shared sub-range one of device 0. -/
theorem hiddenCellsKept : Obligations.HiddenCellsKept := by
  intro i s t hreset hrestore h d x hd hx
  obtain hcp | ⟨p, v, rfl⟩ | hi | hi := (exec_eq_next.mp h).cp_eq_or
  · rw [hcp]
  · cases exec_eq_next.mp h
    exact s.cp.read_write_of_ne_cell s.cfg p v (s.cp.cell_ne_of_shared hd hx)
  · exact absurd hi hreset
  · exact absurd hi hrestore

/-- Settles O46: a transaction that is none of the named ones leaves RF, and CP. -/
theorem onlyNamedTransactionsChangeState : Obligations.OnlyNamedTransactionsChangeState := by
  intro i s t h
  have hc := exec_eq_next.mp h
  exact ⟨hc.rf_eq_or.resolve_left, hc.cp_eq_or.resolve_left⟩

/-- Settles O47: the growth of each history, case by case of the transaction. -/
theorem historiesOnlyGrow : Obligations.HistoriesOnlyGrow := by
  intro i s t h
  have hc := exec_eq_next.mp h
  exact ⟨hc.installer_grows, hc.responses_grow, hc.blobsOut_grow, hc.cfg_eq, hc.requests_eq, hc.blobPort_eq⟩

/-- Settles O48: the reset state holds the reset values, and the transaction of a step keeps the reserved bits. -/
theorem stepKeepsReservedBits : Obligations.StepKeepsReservedBits := by
  refine ⟨resetRegFile_reservedKept Config.default, fun s t hs h => ?_⟩
  obtain ⟨i, hi⟩ := completes_of_step h
  exact hi.reservedKept (by simpa using hs)

/-- Settles O49: the list of R210 is the resolver's, and the transaction of a step keeps the installation the
resolver's list. -/
theorem stepKeepsDerivedInstallation : Obligations.StepKeepsDerivedInstallation := by
  refine ⟨resolve_resetRegFile_default.symm, fun s t hs h => ?_⟩
  obtain ⟨i, hi⟩ := completes_of_step h
  exact hi.derived (by simpa using hs)

/-- Settles O9: the columns row by row; an id that named a register would be that register's, which the premises
exclude. -/
theorem schemaMatchesTable : Obligations.SchemaMatchesTable := by
  refine ⟨by decide, exemplarSchema_lawful.allStored, fun rf r => ?_, fun _ => rfl, by decide, fun _ => ⟨rfl, rfl⟩,
    regOfId_storage_id, regOfId_const_id, fun id hdevid hrevid hstorage => ?_, rfl, fun _ => rfl, fun _ _ => rfl,
    fun _ => rfl⟩
  · rw [RegFile.locked_eq_lockBitSet]
    cases r <;> rfl
  · cases hid : regOfId id with
    | none => rfl
    | some r =>
      have hr : r.id = id := id_of_regOfId hid
      match r with
      | .const .devid => exact absurd hr.symm hdevid
      | .const .revid => exact absurd hr.symm hrevid
      | .storage r => exact absurd hr.symm (hstorage r)

/-- Settles O41: RESET loads the reset values by definition; at the default parameters the resolver makes the list of
R210 of them. -/
theorem resetResult : Obligations.ResetResult := by
  refine ⟨fun s => rfl, fun s hs => ⟨_, rfl, ?_, rfl, rfl, rfl, fun a => ?_, ?_, ?_⟩⟩
  · show resetRegFile s.cfg = _
    rw [hs]
    rfl
  · show Memory.read s.cfg.bankReset a = 0x00
    rw [hs]
    rfl
  · show resolve s.cfg (resetRegFile s.cfg) = resetRegions
    rw [hs, resolve_resetRegFile_default]
  · show s.installer ++ installSequence (resolve s.cfg (resetRegFile s.cfg)) = _
    rw [hs, resolve_resetRegFile_default]
    exact congrArg (s.installer ++ ·) (by decide +kernel)
end

section
/-!
PROOFS. Memory effects (20_memory.md R59, R60): what repeating a register write or a port write does, and that a
transaction that reads leaves all but the output histories.
-/
namespace Sys2Proof.Machine

/-! ## Repeating a register write (R60, R102) -/

/-- Merging the same write into its own result gives that result again (R104). -/
theorem mergeMasked_mergeMasked {w : Nat} (old d m wm : BitVec w) :
    mergeMasked (mergeMasked old d m wm) d m wm = mergeMasked old d m wm := by
  apply BitVec.eq_of_getLsbD_eq
  intro i _
  simp only [mergeMasked_getLsbD]
  split <;> rfl

theorem RegFile.set_set_same (rf : RegFile) (r : StorageReg) (v w : BitVec r.width) :
    (rf.set r v).set r w = rf.set r w := by
  cases r <;> rfl

/-- A CFGWR repeated on the registers it left computes the value it stored. -/
theorem RegFile.merged_set_merged (rf : RegFile) (r : StorageReg) (data mask : Word) :
    (rf.set r (rf.merged r data mask)).merged r data mask = rf.merged r data mask := by
  calc (rf.set r (rf.merged r data mask)).merged r data mask
      _ = mergeMasked ((rf.set r (rf.merged r data mask)).get r) (operandAt r.width data) (operandAt r.width mask)
            r.writeMask := rfl
      _ = mergeMasked (rf.merged r data mask) (operandAt r.width data) (operandAt r.width mask) r.writeMask := by
        rw [RegFile.get_set_same]
      _ = rf.merged r data mask := mergeMasked_mergeMasked ..

/-- Storing the same value again leaves the registers and the installation, and sends the sequence of the first store
again (R105). -/
theorem State.commitReg_commitReg (s : State) (r : StorageReg) (v : BitVec r.width) :
    ((s.commitReg r v).commitReg r v).rf = (s.commitReg r v).rf ∧
    ((s.commitReg r v).commitReg r v).ri = (s.commitReg r v).ri ∧
    ∃ sent, (s.commitReg r v).installer = s.installer ++ sent ∧
      ((s.commitReg r v).commitReg r v).installer = (s.commitReg r v).installer ++ sent := by
  have hset : (s.commitReg r v).rf.set r v = s.rf.set r v := by rw [State.commitReg_rf, RegFile.set_set_same]
  refine ⟨?_, ?_, _, State.commitReg_installer s r v, ?_⟩
  · rw [State.commitReg_rf, hset, State.commitReg_rf]
  · rw [State.commitReg_ri, hset, State.commitReg_cfg, State.commitReg_ri]
    split <;> rfl
  · rw [State.commitReg_installer, hset, State.commitReg_cfg]

/-! ## Repeating a port write (R60, R161) -/

/-- A data write keeps the cell a data access reaches: where it selects a device, the access does not ask which is
selected (R163, R164). -/
theorem ConfigPort.cell_write_data (cfg : Config) (cp : ConfigPort) (v : Byte) : (cp.write cfg .data v).cell = cp.cell := by
  cases hl : cp.locked
  · rw [ConfigPort.write_data_unlocked hl]
    by_cases hshared : cp.idx ≤ sharedMax <;> simp [ConfigPort.cell, ConfigPort.dev, hshared]
  · simp [ConfigPort.write_locked hl]

/-- A repeated data write stores the same byte in the same cell and selects the same device. -/
theorem ConfigPort.write_data_write_data {cfg : Config} {cp : ConfigPort} (hbank : cp.bank.wf = true)
    (hl : cp.locked = false) (v : Byte) : (cp.write cfg .data v).write cfg .data v = cp.write cfg .data v := by
  have hstill : (cp.write cfg .data v).locked = false := by rw [ConfigPort.write_data_unlocked hl]; exact hl
  rw [ConfigPort.write_data_unlocked hstill, ConfigPort.cell_write_data, ConfigPort.write_data_unlocked hl,
    Memory.write_write_same hbank cp.cell_lt]
  split <;> rfl

/-- A repeated index write in the state UNLOCKED: after the lock key the port is LOCKED and discards it, another byte is
stored as the index again. -/
theorem ConfigPort.write_index_write_index {cfg : Config} {cp : ConfigPort} (hkeys : cfg.unlockByte ≠ cfg.lockByte)
    (hl : cp.locked = false) (v : Byte) : (cp.write cfg .index v).write cfg .index v = cp.write cfg .index v := by
  rw [ConfigPort.write_index_unlocked hl]
  by_cases hlock : v = cfg.lockByte
  · subst hlock
    rw [if_pos rfl, ConfigPort.write_locked rfl, if_neg fun h => hkeys h.2.symm]
  · have hstill : ({ cp with idx := v } : ConfigPort).locked = false := hl
    rw [if_neg hlock, ConfigPort.write_index_unlocked hstill, if_neg hlock]

/-- Repeating a port write leaves the port as doing it once, but after the unlock write it is an index write (R60). -/
theorem ConfigPort.write_write {cfg : Config} {cp : ConfigPort} (hkeys : cfg.unlockByte ≠ cfg.lockByte)
    (hbank : cp.bank.wf = true) (p : Port) (v : Byte) :
    (cp.write cfg p v).write cfg p v =
      if cp.locked = true ∧ p = .index ∧ v = cfg.unlockByte then { cp.write cfg p v with idx := v }
      else cp.write cfg p v := by
  cases hl : cp.locked with
  | false =>
    rw [if_neg (by simp)]
    cases p with
    | index => exact ConfigPort.write_index_write_index hkeys hl v
    | data => exact ConfigPort.write_data_write_data hbank hl v
  | true =>
    by_cases hunlock : p = .index ∧ v = cfg.unlockByte
    · obtain ⟨rfl, rfl⟩ := hunlock
      have hfirst : cp.write cfg .index cfg.unlockByte = cp.key cfg false cfg.unlockByte := by
        rw [ConfigPort.write_locked hl, if_pos ⟨rfl, rfl⟩]
      rw [hfirst, ConfigPort.write_index_unlocked rfl, if_neg hkeys, if_pos ⟨rfl, rfl, rfl⟩]
    · have hfirst : cp.write cfg p v = cp := by rw [ConfigPort.write_locked hl, if_neg hunlock]
      rw [if_neg fun h => hunlock h.2, hfirst, hfirst]

/-! ## Transactions that only read (R59) -/

/-- CFGRD of an id of the schema answers (R101). -/
theorem exists_completes_cfgrd {id : Byte} (hid : schemaIds.contains id = true) (s : State) :
    ∃ t, Completes (.cfgrd id) s t := by
  rw [← regOfId_isSome_eq] at hid
  obtain ⟨r, hr⟩ := Option.isSome_iff_exists.mp hid
  exact ⟨_, .cfgrd hr⟩

end Sys2Proof.Machine

open Sys2Proof Sys2Proof.Machine

/-- Settles O17: a repeated CFGWR is discarded, by the lock bit the first one set if not before, or stores the same value;
a repeated IOWR by the port's lock state. -/
theorem repeatedWrites : Obligations.RepeatedWrites := by
  refine ⟨fun id data mask s t h => ?_, fun p v s t hkeys hbank h => ?_⟩
  · cases exec_eq_next.mp h with
    | constDiscarded | lockedDiscarded => exact ⟨_, h, rfl, rfl, .inl rfl⟩
    | @stored _ _ _ _ r hid hlock =>
      cases hagain : (s.commitReg r (s.rf.merged r data mask)).rf.locked r with
      | true => exact ⟨_, exec_eq_next.mpr (.lockedDiscarded hid hagain), rfl, rfl, .inl rfl⟩
      | false =>
        have hstored := exec_eq_next.mpr (Completes.stored (data := data) (mask := mask) hid hagain)
        rw [State.commitReg_rf, RegFile.merged_set_merged] at hstored
        obtain ⟨hrf, hri, hsent⟩ := s.commitReg_commitReg r (s.rf.merged r data mask)
        exact ⟨_, hstored, hrf, hri, .inr hsent⟩
  · cases exec_eq_next.mp h
    rw [exec_eq_next.mpr .iowr, State.withCp_cfg, State.withCp_cp, ConfigPort.write_write hkeys hbank]
    split <;> rfl

/-- Settles O45: each transaction that reads only extends a history. -/
theorem readsChangeNoState : Obligations.ReadsChangeNoState := by
  intro i s hcfgwr hiowr hreset hrestore
  refine ⟨fun hwf => ?_, fun t h => ?_⟩
  · simp only [exec_eq_next]
    cases i with
    | nop => exact ⟨_, .nop⟩
    | cfgrd id => exact exists_completes_cfgrd hwf s
    | iord p => exact ⟨_, .iord⟩
    | lookup dir a => exact ⟨_, .lookup⟩
    | snapshot => exact ⟨_, .snapshot⟩
    | cfgwr id data mask => exact absurd rfl (hcfgwr id data mask)
    | iowr p v => exact absurd rfl (hiowr p v)
    | reset => exact absurd rfl hreset
    | restore => exact absurd rfl hrestore
  · cases exec_eq_next.mp h with
    | nop | cfgrd | iord | lookup | snapshot => rfl
    | constDiscarded | lockedDiscarded | stored => exact absurd rfl (hcfgwr _ _ _)
    | iowr => exact absurd rfl (hiowr _ _)
    | reset => exact absurd rfl hreset
    | restore => exact absurd rfl hrestore
end

section
/-!
PROOFS. The transaction word (30_encoding.md R81 to R88): the decoder answers a transaction exactly on the words that
agree with its encoding on the bits it uses, and refuses exactly the reserved words.
-/
namespace Sys2Proof

/-! ## A word is its five fields (R81) -/

/-- The five fields make up the whole word: no bit lies outside them. -/
theorem Txn.append_fields (w : Txn) : w.op ++ w.z ++ w.a ++ w.m ++ w.d = w := by
  simp (disch := decide) only [Txn.op, Txn.z, Txn.a, Txn.m, Txn.d,
    BitVec.extractLsb'_append_extractLsb'_eq_extractLsb']
  exact BitVec.extractLsb'_eq_self

theorem Txn.eq_iff_fields {w w' : Txn} :
    w = w' ↔ w.op = w'.op ∧ w.z = w'.z ∧ w.a = w'.a ∧ w.m = w'.m ∧ w.d = w'.d := by
  refine ⟨by rintro rfl; simp only [and_self], fun ⟨hop, hz, ha, hm, hd⟩ => ?_⟩
  rw [← w.append_fields, hop, hz, ha, hm, hd, w'.append_fields]

@[simp] theorem Txn.op_and (w u : Txn) : Txn.op (w &&& u) = w.op &&& u.op := BitVec.extractLsb'_and
@[simp] theorem Txn.z_and (w u : Txn) : Txn.z (w &&& u) = w.z &&& u.z := BitVec.extractLsb'_and
@[simp] theorem Txn.a_and (w u : Txn) : Txn.a (w &&& u) = w.a &&& u.a := BitVec.extractLsb'_and
@[simp] theorem Txn.m_and (w u : Txn) : Txn.m (w &&& u) = w.m &&& u.m := BitVec.extractLsb'_and
@[simp] theorem Txn.d_and (w u : Txn) : Txn.d (w &&& u) = w.d &&& u.d := BitVec.extractLsb'_and

/-- The mask `u` selects OP, Z and, of the operand fields, the bits `ua`, `um` and `ud`. -/
def Txn.Selects (u : Txn) (ua : Byte) (um ud : Word) : Prop :=
  u.op = BitVec.allOnes 4 ∧ u.z = BitVec.allOnes 4 ∧ u.a = ua ∧ u.m = um ∧ u.d = ud

/-- Agreement with a packed word under a mask, field by field. -/
theorem Txn.Selects.and_eq_packTxn_and_iff {w u : Txn} {op : BitVec 4} {a ua : Byte} {m d um ud : Word}
    (hu : u.Selects ua um ud) :
    w &&& u = packTxn op a m d &&& u ↔
      w.z = 0 ∧ w.op = op ∧ w.a &&& ua = a &&& ua ∧ w.m &&& um = m &&& um ∧ w.d &&& ud = d &&& ud := by
  obtain ⟨hop, hz, rfl, rfl, rfl⟩ := hu
  simp only [Txn.eq_iff_fields, Txn.op_and, Txn.z_and, Txn.a_and, Txn.m_and, Txn.d_and, packTxn_op, packTxn_z,
    packTxn_a, packTxn_m, packTxn_d, hop, hz, BitVec.and_allOnes, and_left_comm]

/-! ## Operands (R83) -/

/-- The mask of A[0] keeps exactly the bit a port or a direction is read from. -/
theorem and_one_eq_and_one_iff (a b : Byte) : a &&& 1 = b &&& 1 ↔ a.getLsbD 0 = b.getLsbD 0 := by
  have hbit : ∀ x : Byte, x &&& 1 = (BitVec.ofBool (x.getLsbD 0)).setWidth 8 :=
    fun x => BitVec.and_one_eq_setWidth_ofBool_getLsbD
  rw [hbit, hbit]
  cases a.getLsbD 0 <;> cases b.getLsbD 0 <;> decide

theorem portOfA_eq_iff {a : Byte} {p : Port} : portOfA a = p ↔ a &&& 1 = aOfPort p &&& 1 := by
  rw [and_one_eq_and_one_iff]
  cases p <;> simp [portOfA, aOfPort]

theorem dirOfA_eq_iff {a : Byte} {dir : Dir} : dirOfA a = dir ↔ a &&& 1 = aOfDir dir &&& 1 := by
  rw [and_one_eq_and_one_iff]
  cases dir <;> simp [dirOfA, aOfDir]

/-- The byte of an IOWR comes back from the field it was written to. -/
theorem byteOfD_setWidth (v : Byte) : byteOfD (v.setWidth 32) = v := by
  apply BitVec.eq_of_getLsbD_eq
  intro i hi
  simp [byteOfD, hi, Nat.lt_trans hi]

theorem toNat_and_255 (d : Word) : (d &&& 0xFF).toNat = (byteOfD d).toNat := by
  simp [byteOfD, Nat.and_two_pow_sub_one_eq_mod d.toNat 8]

theorem byteOfD_eq_iff {d : Word} {v : Byte} : byteOfD d = v ↔ d &&& 0xFF = v.setWidth 32 &&& 0xFF := by
  rw [← BitVec.toNat_inj (x := d &&& 0xFF), toNat_and_255, toNat_and_255, BitVec.toNat_inj, byteOfD_setWidth]

/-! ## The decoder (R82) -/

/-- The operands of a transaction stand in their fields of a word (R83). -/
def Instr.operandsIn (w : Txn) : Instr → Prop
  | .nop => True
  | .cfgrd id => w.a = id
  | .cfgwr id data mask => w.a = id ∧ w.m = mask ∧ w.d = data
  | .iord p => portOfA w.a = p
  | .iowr p v => portOfA w.a = p ∧ byteOfD w.d = v
  | .lookup dir addr => dirOfA w.a = dir ∧ w.d = addr
  | .reset => True
  | .snapshot => True
  | .restore => True

/-- The operation map, read in both directions (R82): one row for each operation. -/
theorem decodeOp_eq_ok_iff {w : Txn} {i : Instr} : decodeOp w = .ok i ↔ w.op = i.op ∧ i.operandsIn w := by
  constructor
  · intro h
    unfold decodeOp at h
    split at h <;> cases h <;> exact ⟨BitVec.eq_of_toNat_eq ‹_›, by simp only [Instr.operandsIn, and_self]⟩
  · rintro ⟨hop, hoperands⟩
    cases i <;> simp_all [decodeOp, Instr.op, Instr.operandsIn]

/-- What decodes: Z is 0, OP is the operation's code, and the operands are read from their fields (R82, R83). -/
theorem decode_eq_ok_iff_fields {w : Txn} {i : Instr} :
    decode w = .ok i ↔ w.z = 0 ∧ w.op = i.op ∧ i.operandsIn w := by
  rw [← decodeOp_eq_ok_iff]
  unfold decode
  split
  · next hz => simp only [hz, true_and]
  · next hz => simp only [hz, false_and, reduceCtorEq]

/-- The used bits of a word are those of the encoding exactly when its fields are the transaction's (R82, R83). -/
theorem and_usedBits_eq_iff_fields {w : Txn} {i : Instr} :
    w &&& i.usedBits = encode i &&& i.usedBits ↔ w.z = 0 ∧ w.op = i.op ∧ i.operandsIn w := by
  cases i with
  | nop | reset | snapshot | restore =>
    have hu : Txn.Selects 0xFF000000000000000000 0 0 0 := ⟨rfl, rfl, rfl, rfl, rfl⟩
    exact hu.and_eq_packTxn_and_iff.trans (by simp [Instr.operandsIn])
  | cfgrd id =>
    have hu : Txn.Selects 0xFFFF0000000000000000 (BitVec.allOnes 8) 0 0 := ⟨rfl, rfl, rfl, rfl, rfl⟩
    exact hu.and_eq_packTxn_and_iff.trans (by simp only [Instr.operandsIn, BitVec.and_allOnes,
      BitVec.ofNat_eq_ofNat, BitVec.and_zero, and_true])
  | cfgwr id data mask =>
    have hu : Txn.Selects 0xFFFFFFFFFFFFFFFFFFFF (BitVec.allOnes 8) (BitVec.allOnes 32) (BitVec.allOnes 32) :=
      ⟨rfl, rfl, rfl, rfl, rfl⟩
    exact hu.and_eq_packTxn_and_iff.trans (by simp only [Instr.operandsIn, BitVec.and_allOnes])
  | iord p =>
    have hu : Txn.Selects 0xFF010000000000000000 1 0 0 := ⟨rfl, rfl, rfl, rfl, rfl⟩
    exact hu.and_eq_packTxn_and_iff.trans (by simp [Instr.operandsIn, portOfA_eq_iff])
  | iowr p v =>
    have hu : Txn.Selects 0xFF0100000000000000FF 1 0 0xFF := ⟨rfl, rfl, rfl, rfl, rfl⟩
    exact hu.and_eq_packTxn_and_iff.trans (by simp [Instr.operandsIn, portOfA_eq_iff, byteOfD_eq_iff])
  | lookup dir addr =>
    have hu : Txn.Selects 0xFF0100000000FFFFFFFF 1 0 (BitVec.allOnes 32) := ⟨rfl, rfl, rfl, rfl, rfl⟩
    exact hu.and_eq_packTxn_and_iff.trans (by simp only [Instr.operandsIn, dirOfA_eq_iff, BitVec.and_allOnes,
      BitVec.ofNat_eq_ofNat, BitVec.and_zero, true_and])

/-- Decoding is agreement with the encoding on the used bits: the round trip and the ignored fields of R82 and R83 both
follow from it. -/
theorem decode_eq_ok_iff {w : Txn} {i : Instr} : decode w = .ok i ↔ w &&& i.usedBits = encode i &&& i.usedBits :=
  decode_eq_ok_iff_fields.trans and_usedBits_eq_iff_fields.symm

theorem decodeOp_eq_error_iff {w : Txn} : (∃ e, decodeOp w = .error e) ↔ 9 ≤ w.op.toNat := by
  unfold decodeOp
  split
  case h_10 =>
    simp only [imp_false] at *
    simp only [Except.error.injEq, exists_eq', true_iff]
    omega
  all_goals
    simp only [reduceCtorEq, exists_false, false_iff]
    omega

/-- The reserved words (R86). -/
theorem decode_eq_error_iff {w : Txn} : (∃ e, decode w = .error e) ↔ 9 ≤ w.op.toNat ∨ w.z ≠ 0 := by
  unfold decode
  split
  · next hz => simp only [decodeOp_eq_error_iff, hz, ne_eq, not_true_eq_false, or_false]
  · next hz => simp only [Except.error.injEq, exists_eq', hz, ne_eq, not_false_eq_true, or_true]

end Sys2Proof

namespace Sys2Proof.Machine

/-! ## Refusals (R86, R87, R203) -/

/-- What a transaction can be refused for: an id outside the schema, a blob of the wrong length (R87, R182). -/
theorem exec_eq_refused {i : Instr} {s : State} {why : Refusal} (h : exec i s = .refused why) :
    (∃ id, why = .unknownRegister id) ∨ ∃ n, why = .wrongBlobLength n := by
  cases i with
  | cfgrd id =>
    simp only [exec, execCfgrd, Tables.cfgrd] at h
    split at h <;> cases h
    exact .inl ⟨id, rfl⟩
  | cfgwr id data mask =>
    simp only [exec, execCfgwr, Tables.cfgwr] at h
    split at h
    · cases h; exact .inl ⟨id, rfl⟩
    · cases h
    · split at h <;> cases h
  | restore =>
    simp only [exec, execRestore, Tables.restore] at h
    split at h <;> cases h
    exact .inr ⟨_, rfl⟩
  | nop | iord p | iowr p v | lookup dir a | reset | snapshot => exact nomatch h

/-- A step refuses a word as reserved for the decoder's reason, and for no other word (R86). -/
theorem step_eq_reservedWord_iff {s : State} {e : DecodeError} (hcfg : validConfig s.cfg = true) :
    step s = .refused (.reservedWord e) ↔ decode s.nextTxn = .error e := by
  cases hdec : decode s.nextTxn with
  | error e' =>
    simp only [step, hcfg, hdec, if_true, Host.Outcome.refused.injEq, Refusal.reservedWord.injEq, Except.error.injEq]
  | ok i =>
    have hexec : exec i s.accepted ≠ .refused (.reservedWord e) := by
      intro h
      obtain ⟨_, hwhy⟩ | ⟨_, hwhy⟩ := exec_eq_refused h <;> cases hwhy
    simp only [step_of_decode hcfg hdec, hexec, reduceCtorEq]

end Sys2Proof.Machine

open Sys2Proof Sys2Proof.Machine

/-- Settles O1: the encoding agrees with itself on the used bits. -/
theorem decodeEncodeRoundTrip : Obligations.DecodeEncodeRoundTrip :=
  fun _ => decode_eq_ok_iff.mpr rfl

/-- Settles O2: both words agree with the encoding on the used bits. -/
theorem onlyUsedBitsDecode : Obligations.OnlyUsedBitsDecode :=
  fun _ _ hdec =>
    have hused := decode_eq_ok_iff.mp hdec
    ⟨hused.symm, fun _ hsame => decode_eq_ok_iff.mpr (hsame.trans hused)⟩

/-- Settles O3: the words the decoder rejects, and no transaction is refused as a reserved word. -/
theorem reservedWordsRefused : Obligations.ReservedWordsRefused := by
  intro s hcfg
  simp only [step_eq_reservedWord_iff hcfg]
  exact decode_eq_error_iff

/-- Settles O4: each word agrees with the transaction's encoding on the bits it uses. -/
theorem specWordsDecode : Obligations.SpecWordsDecode := by
  simp only [Obligations.SpecWordsDecode, decode_eq_ok_iff]
  decide

/-- Settles O8: the ids of the list are those the schema knows. -/
theorem idsOutsideSchemaRefused : Obligations.IdsOutsideSchemaRefused := by
  intro s id data mask hid
  have hunknown : regOfId id = none :=
    (regOfId_eq_none_iff id).mpr (Bool.eq_false_iff.mpr fun h => hid (List.contains_iff_mem.mp h))
  obtain ⟨hrefused, -, -⟩ := anySchemaRegisterAccess exemplarNb exemplarSchema_lawful s id data mask
  simpa only [exec_exemplarNb] using hrefused hunknown
end

section
/-!
PROOFS. The output words (30_encoding.md R84, R85, R91): the fields of a response and of a command to the Region
Installer.
-/
namespace Sys2Proof.Machine

theorem Mode.code_eq_zero_iff {m : Mode} : m.code = 0 ↔ m = .hidden := by cases m <;> decide

/-! ## RSP (R84) -/

section
variable (r : Response)

theorem Response.pack_zeros : r.pack.extractLsb' 37 3 = 0 :=
  (BitVec.extractLsb'_append_eq_of_le (by decide)).trans
    ((BitVec.extractLsb'_append_eq_of_le (by decide)).trans BitVec.extractLsb'_append_eq_left)

theorem Response.pack_route : r.pack.extractLsb' 35 2 = r.route.code :=
  (BitVec.extractLsb'_append_eq_of_le (by decide)).trans
    ((BitVec.extractLsb'_append_eq_of_le (by decide)).trans BitVec.extractLsb'_append_eq_right)

theorem Response.pack_mode : r.pack.extractLsb' 32 3 = r.mode.code :=
  (BitVec.extractLsb'_append_eq_of_le (by decide)).trans BitVec.extractLsb'_append_eq_right

theorem Response.pack_val : r.pack.extractLsb' 0 32 = r.val := BitVec.extractLsb'_append_eq_right

end

/-! ## CMD (R85) -/

section
variable (r : Region)

theorem Command.pack_install_kind : (Command.install r).pack.extractLsb' 99 1 = 1 :=
  (BitVec.extractLsb'_append_eq_of_le (by decide)).trans
    ((BitVec.extractLsb'_append_eq_of_le (by decide)).trans
      ((BitVec.extractLsb'_append_eq_of_le (by decide)).trans BitVec.extractLsb'_append_eq_left))

theorem Command.pack_install_mode : (Command.install r).pack.extractLsb' 96 3 = r.mode.code :=
  (BitVec.extractLsb'_append_eq_of_le (by decide)).trans
    ((BitVec.extractLsb'_append_eq_of_le (by decide)).trans
      ((BitVec.extractLsb'_append_eq_of_le (by decide)).trans BitVec.extractLsb'_append_eq_right))

theorem Command.pack_install_start : (Command.install r).pack.extractLsb' 64 32 = r.start :=
  (BitVec.extractLsb'_append_eq_of_le (by decide)).trans
    ((BitVec.extractLsb'_append_eq_of_le (by decide)).trans BitVec.extractLsb'_append_eq_right)

theorem Command.pack_install_last : (Command.install r).pack.extractLsb' 32 32 = r.last :=
  (BitVec.extractLsb'_append_eq_of_le (by decide)).trans BitVec.extractLsb'_append_eq_right

theorem Command.pack_install_backing : (Command.install r).pack.extractLsb' 0 32 = r.backing :=
  BitVec.extractLsb'_append_eq_right

end

end Sys2Proof.Machine

open Sys2Proof Sys2Proof.Machine

/-- Settles O25: the fields of an INSTALL, its MODE nonzero because the resolver lists no HIDDEN entry. -/
theorem commandWordLayout : Obligations.CommandWordLayout := by
  refine ⟨fun _ => rfl, rfl, fun r => ⟨Command.pack_install_kind r, Command.pack_install_mode r,
    Command.pack_install_start r, Command.pack_install_last r, Command.pack_install_backing r, fun cfg rf hr => ?_⟩⟩
  obtain ⟨hproper, -⟩ := resolve_ordered cfg rf
  obtain ⟨-, hmode⟩ := hproper r hr
  exact mt Mode.code_eq_zero_iff.mp hmode

/-- Settles O26: the codes by evaluation, the fields by position. -/
theorem responseWordLayout : Obligations.ResponseWordLayout :=
  ⟨rfl, rfl, by decide, fun r => ⟨r.pack_zeros, r.pack_route, r.pack_mode, r.pack_val⟩⟩
end

section
/-!
PROOFS. Register File access (40_register_access.md R100 to R108): what CFGRD answers, what a CFGWR discards or stores by
the lock bit of R26, the merge under an all-ones write-mask, and the transactions that run the resolver.
-/
namespace Sys2Proof

/-- OP and Z make up the top byte of a word (R81). -/
theorem Txn.op_append_z (w : Txn) : w.op ++ w.z = w.extractLsb' 72 8 :=
  BitVec.extractLsb'_append_extractLsb'_eq_extractLsb' (by decide)

end Sys2Proof

namespace Sys2Proof.Machine

/-! ## Reading a register (R101) -/

/-- CFGRD of a register of the schema answers its value and leaves the rest, locks or not. -/
theorem exec_cfgrd_id (s : State) (r : Reg) :
    exec (.cfgrd r.id) s = .next { s with responses := s.responses ++ [(0 : BitVec 8) ++ s.rf.readReg s.cfg r] } := by
  rw [← State.respondVal_eq]
  exact exec_eq_next.mpr (.cfgrd (regOfId_id r))

theorem exec_cfgrd_storage_id (s : State) (r : StorageReg) :
    exec (.cfgrd r.id) s = .next { s with responses := s.responses ++ [(0 : BitVec 8) ++ (s.rf.get r).setWidth 32] } :=
  exec_cfgrd_id s (.storage r)

/-! ## Writing a register by its lock bit (R26, R102, R103) -/

/-- The rows of R26's table: the registers each lock bit guards. -/
theorem RegFile.lockBitSet_iff {rf : RegFile} {r : StorageReg} :
    rf.lockBitSet r = true ↔
      rf.lockctl.getLsbD 0 = true ∧ r ∈ [StorageReg.pam1, .pam2, .pam3, .pam4, .pam5, .pam6, .pam7] ∨
      rf.lockctl.getLsbD 1 = true ∧ r = .tom ∨
      rf.lockctl.getLsbD 2 = true ∧ (r = .apbase ∨ r = .apsize) ∨
      rf.lockctl.getLsbD 7 = true ∧ r = .lockctl ∨
      rf.smramc.getLsbD 4 = true ∧ (r = .smramc ∨ r = .esmramc) := by
  cases r <;> simp [RegFile.lockBitSet]

section

variable {s : State} {r : StorageReg}

theorem exec_cfgwr_of_lockBitSet (h : s.rf.lockBitSet r = true) (data mask : Word) :
    exec (.cfgwr r.id data mask) s = .next s :=
  exec_eq_next.mpr (.lockedDiscarded (regOfId_storage_id r) ((s.rf.locked_eq_lockBitSet r).trans h))

theorem exec_cfgwr_of_lockBitClear (h : s.rf.lockBitSet r = false) (data mask : Word) :
    exec (.cfgwr r.id data mask) s = .next (s.commitReg r (s.rf.merged r data mask)) :=
  exec_eq_next.mpr (.stored (regOfId_storage_id r) ((s.rf.locked_eq_lockBitSet r).trans h))

end

/-- The register a store went to holds the stored value (R102). -/
theorem State.commitReg_get_same (s : State) (r : StorageReg) (v : BitVec r.width) : (s.commitReg r v).rf.get r = v := by
  rw [State.commitReg_rf, RegFile.get_set_same]

/-- A store leaves every other register (R102). -/
theorem State.commitReg_get_ne (s : State) {r q : StorageReg} (v : BitVec r.width) (h : q ≠ r) :
    (s.commitReg r v).rf.get q = s.rf.get q := by
  rw [State.commitReg_rf, RegFile.get_set_ne _ _ h]

/-! ## The merge and the unmasked-field expression (R104, R107) -/

section

variable {w : Nat} (old d m wm : BitVec w)

theorem mergeMasked_eq_and_assoc : mergeMasked old d m wm = (old &&& ~~~(m &&& wm)) ||| (d &&& m &&& wm) := by
  rw [BitVec.and_assoc]
  rfl

/-- The document's expression is the merge of a register all of whose bits may be written. -/
theorem mergeMasked_allOnes : mergeMasked old d m (BitVec.allOnes w) = (old &&& ~~~m) ||| (d &&& m) := by
  simp only [mergeMasked, BitVec.and_allOnes]

/-- The merge is the document's expression exactly when the selected bits it may not write carry their old value. -/
theorem mergeMasked_eq_unmasked_iff :
    mergeMasked old d m wm = (old &&& ~~~m) ||| (d &&& m) ↔
      ∀ i, i < w → m.getLsbD i = true → wm.getLsbD i = false → d.getLsbD i = old.getLsbD i := by
  rw [← mergeMasked_allOnes, BitVec.eq_of_getLsbD_eq_iff]
  refine forall₂_congr fun i hi => ?_
  simp only [mergeMasked_getLsbD, BitVec.getLsbD_allOnes, hi, decide_true, Bool.and_true]
  cases m.getLsbD i
  · simp
  · cases wm.getLsbD i
    · simp [eq_comm]
    · simp

end

/-- SCRATCH's write-mask has every bit, so a write to it is the document's expression (R107). -/
theorem RegFile.merged_scratch (rf : RegFile) (data mask : Word) :
    rf.merged .scratch data mask = (rf.scratch &&& ~~~mask) ||| (data &&& mask) := by
  rw [← mergeMasked_allOnes]
  show mergeMasked rf.scratch (data.setWidth 32) (mask.setWidth 32) (BitVec.allOnes 32) = _
  rw [BitVec.setWidth_eq, BitVec.setWidth_eq]

/-! ## The resolver's events (R105, R121, R122) -/

/-- The registers whose writes do not run the resolver (R27). -/
theorem StorageReg.decodeRelevant_eq_false_iff {r : StorageReg} :
    r.decodeRelevant = false ↔ r = .lockctl ∨ r = .scratch := by
  cases r <;> decide

section

variable {r : StorageReg}

/-- A store to a decode-relevant register runs the resolver once, on the new registers (R105). -/
theorem State.commitReg_of_decodeRelevant (hr : r.decodeRelevant = true) (s : State) (v : BitVec r.width) :
    (s.commitReg r v).ri = resolve s.cfg (s.commitReg r v).rf ∧
    (s.commitReg r v).installer = s.installer ++ installSequence (resolve s.cfg (s.commitReg r v).rf) := by
  rw [State.commitReg_ri, State.commitReg_installer, State.commitReg_rf, if_pos hr, if_pos hr]
  exact ⟨rfl, rfl⟩

/-- A store to LOCKCTL or SCRATCH does not run the resolver (R105). -/
theorem State.commitReg_of_not_decodeRelevant (hr : r.decodeRelevant = false) (s : State) (v : BitVec r.width) :
    (s.commitReg r v).ri = s.ri ∧ (s.commitReg r v).installer = s.installer := by
  rw [State.commitReg_ri, State.commitReg_installer]
  simp only [hr, Bool.false_eq_true, if_false, List.append_nil, and_self]

/-- A CFGWR is an event by the register its id names (R121). -/
theorem resolverEvent_cfgwr_iff {s : State} {id : Byte} (hid : regOfId id = some (.storage r)) (data mask : Word) :
    resolverEvent (.cfgwr id data mask) s ↔ r.decodeRelevant = true ∧ s.rf.lockBitSet r = false := by
  simp only [resolverEvent, hid, Option.some.injEq, Reg.storage.injEq, exists_eq_left']

theorem not_resolverEvent_cfgwr_const {s : State} {id : Byte} {c : ConstReg} (hid : regOfId id = some (.const c))
    (data mask : Word) : ¬ resolverEvent (.cfgwr id data mask) s := by
  simp only [resolverEvent, hid, Option.some.injEq, reduceCtorEq, false_and, exists_false, not_false_eq_true]

end

end Sys2Proof.Machine

open Sys2Proof Sys2Proof.Machine

/-- Settles O7: OP and Z are the halves of the byte that is 0. -/
theorem nopChangesNothing : Obligations.NopChangesNothing := by
  refine ⟨fun w hw => ?_, fun _ => rfl⟩
  have hbyte : w.op ++ w.z = (0 : BitVec 8) := w.op_append_z.trans hw
  have hop : w.op = 0 := by rw [← BitVec.extractLsb'_append_eq_left (a := w.op) (b := w.z), hbyte]; rfl
  have hz : w.z = 0 := by rw [← BitVec.extractLsb'_append_eq_right (a := w.op) (b := w.z), hbyte]; rfl
  exact decode_eq_ok_iff_fields.mpr ⟨hz, hop, trivial⟩

/-- Settles O10: the answer for a register of either kind; the table of R14 has no register for another id. -/
theorem cfgrdAnswersRegister : Obligations.CfgrdAnswersRegister := by
  intro s
  refine ⟨fun id hdevid hrevid hstorage => ?_, exec_cfgrd_storage_id s, ?_, ?_⟩
  · obtain ⟨-, -, -, -, -, -, -, -, hnone, -⟩ := schemaMatchesTable
    obtain ⟨hrefused, -, -⟩ := anySchemaRegisterAccess exemplarNb exemplarSchema_lawful s id 0 0
    exact (exec_exemplarNb _ s).symm.trans (hrefused (hnone id hdevid hrevid hstorage)).1
  · have hval : s.rf.readReg s.cfg (.const .devid) = s.cfg.deviceId := BitVec.setWidth_eq _
    rw [← hval]
    exact exec_cfgrd_id s (.const .devid)
  · rw [← zero_append_setWidth_byte]
    exact exec_cfgrd_id s (.const .revid)

/-- Settles O13: the premise says that the register's own lock bit is 1. -/
theorem lockEnforcement : Obligations.LockEnforcement :=
  fun s r data mask hrow => ⟨exec_cfgwr_of_lockBitSet (RegFile.lockBitSet_iff.mpr hrow) data mask, exec_cfgrd_storage_id s r⟩

/-- Settles O11: no row of the lock table guards the register, so the merged value is stored. -/
theorem cfgwrStoresSelectedBits : Obligations.CfgwrStoresSelectedBits := by
  intro s r data mask hpam hmem hap hlck hd
  have hclear : s.rf.lockBitSet r = false := by
    rw [Bool.eq_false_iff, ne_eq, RegFile.lockBitSet_iff]
    rintro (⟨hbit, hr⟩ | ⟨hbit, hr⟩ | ⟨hbit, hr⟩ | ⟨hbit, hr⟩ | ⟨hbit, hr⟩)
    · exact Bool.false_ne_true ((hpam hr).symm.trans hbit)
    · exact Bool.false_ne_true ((hmem hr).symm.trans hbit)
    · exact Bool.false_ne_true ((hap hr).symm.trans hbit)
    · exact Bool.false_ne_true ((hlck hr).symm.trans hbit)
    · exact Bool.false_ne_true ((hd hr).symm.trans hbit)
  refine ⟨_, exec_cfgwr_of_lockBitClear hclear data mask, fun i hi => ?_, fun q hq => s.commitReg_get_ne _ hq, ?_,
    by simp⟩
  · rw [State.commitReg_get_same]
    exact Schema.merged_getLsbD (schema := exemplarSchema) s.rf r data mask hi
  · split
    · next hr => exact State.commitReg_of_not_decodeRelevant (StorageReg.decodeRelevant_eq_false_iff.mpr hr) s _
    · next hr =>
      have hrel : r.decodeRelevant = true := by rwa [← StorageReg.decodeRelevant_eq_false_iff, Bool.not_eq_false] at hr
      exact State.commitReg_of_decodeRelevant hrel s _

/-- Settles O14: the write is judged by the lock bit before it, each later one by the bit it stored. -/
theorem lockJudgedBeforeWrite : Obligations.LockJudgedBeforeWrite := by
  intro s data mask
  refine ⟨fun hd => ?_, fun hlck => ?_⟩
  · refine ⟨_, exec_cfgwr_of_lockBitClear (r := .smramc) hd data mask, s.commitReg_get_same .smramc _,
      fun hset data' mask' => ⟨?_, ?_⟩⟩
    · exact exec_cfgwr_of_lockBitSet (r := .smramc) hset data' mask'
    · exact exec_cfgwr_of_lockBitSet (r := .esmramc) hset data' mask'
  · exact ⟨_, exec_cfgwr_of_lockBitClear (r := .lockctl) hlck data mask, s.commitReg_get_same .lockctl _,
      fun hset data' mask' => exec_cfgwr_of_lockBitSet (r := .lockctl) hset data' mask'⟩

/-- Settles O16: the read after the write answers the merge; SCRATCH's write-mask has every bit. -/
theorem maskCorrectness : Obligations.MaskCorrectness := by
  intro s r data mask
  refine ⟨fun hclear => ⟨_, exec_cfgwr_of_lockBitClear hclear data mask, ?_, ?_⟩, ?_⟩
  · rw [exec_cfgrd_storage_id, State.commitReg_get_same, ← mergeMasked_eq_and_assoc]
    rfl
  · rw [← mergeMasked_eq_and_assoc]
    exact mergeMasked_eq_unmasked_iff ..
  · exact ⟨_, exec_cfgwr_of_lockBitClear (r := .scratch) rfl data mask,
      (s.commitReg_get_same .scratch _).trans (s.rf.merged_scratch data mask)⟩

/-- Settles O18: RESET and RESTORE end in a resolver run, a store runs it by its register, the others leave the
installation and the stream. -/
theorem resolverRunsOnItsEvents : Obligations.ResolverRunsOnItsEvents := by
  intro i s t h
  cases exec_eq_next.mp h with
  | @stored _ _ data mask r hid hlock =>
    rw [RegFile.locked_eq_lockBitSet] at hlock
    rw [resolverEvent_cfgwr_iff hid, State.commitReg_cfg]
    simp only [hlock, and_true, Bool.not_eq_true]
    exact ⟨fun hr => State.commitReg_of_decodeRelevant hr s _, fun hr => State.commitReg_of_not_decodeRelevant hr s _⟩
  | lockedDiscarded hid hlock =>
    rw [RegFile.locked_eq_lockBitSet] at hlock
    refine ⟨fun hev => ?_, fun _ => ⟨rfl, rfl⟩⟩
    obtain ⟨-, hclear⟩ := (resolverEvent_cfgwr_iff hid _ _).mp hev
    exact absurd (hlock.symm.trans hclear) (by decide)
  | constDiscarded hid => exact ⟨fun hev => absurd hev (not_resolverEvent_cfgwr_const hid _ _), fun _ => ⟨rfl, rfl⟩⟩
  | reset | restore => exact ⟨fun _ => ⟨rfl, rfl⟩, fun hno => absurd trivial hno⟩
  | nop | cfgrd | iord | iowr | lookup | snapshot => exact ⟨False.elim, fun _ => ⟨rfl, rfl⟩⟩
end

section
/-!
PROOFS. The resolver (41_resolver.md): which rule decides an address, where an entry of the list comes from, and that
pieces are not merged (R124, R125, R128).
-/
namespace Sys2Proof.Machine

section

variable {RF : Type} {cfg : Config} {rf : RF} {rules : List (DecodeRule RF)}

/-! ## The deciding rule (R124) -/

/-- A rule contributes at an address where its contributed range contains it (R130). -/
theorem contributesAt_eq_some_iff {a : Nat} {k j : DecodeRule RF} {c : Contribution} :
    contributesAt cfg rf a k = some (j, c) ↔ k = j ∧ k.eval cfg rf = some c ∧ c.start ≤ a ∧ a ≤ c.last := by
  unfold contributesAt
  cases k.eval cfg rf with
  | none => simp
  | some d =>
    simp only [Option.ite_none_right_eq_some, Option.some.injEq, Prod.mk.injEq]
    constructor
    · rintro ⟨hcov, rfl, rfl⟩
      exact ⟨rfl, rfl, hcov⟩
    · rintro ⟨rfl, rfl, hcov⟩
      exact ⟨hcov, rfl, rfl⟩

/-- A rule contributes nothing at an address that no range of it contains (R126, R130). -/
theorem contributesAt_eq_none_iff {a : Nat} {k : DecodeRule RF} :
    contributesAt cfg rf a k = none ↔ ∀ c, k.eval cfg rf = some c → ¬ (c.start ≤ a ∧ a ≤ c.last) := by
  rw [Option.eq_none_iff_forall_ne_some]
  constructor
  · exact fun h c hc hcov => h (k, c) (contributesAt_eq_some_iff.mpr ⟨rfl, hc, hcov⟩)
  · rintro h ⟨j, c⟩ hx
    obtain ⟨-, hc, hcov⟩ := contributesAt_eq_some_iff.mp hx
    exact h c hc hcov

theorem decidingOver_eq_findSome? (a : Word) :
    decidingOver rules cfg rf a = rules.reverse.findSome? (contributesAt cfg rf a.toNat) :=
  List.getLast?_filterMap

/-- No rule decides an address that none reaches (R124). -/
theorem decidingOver_eq_none {a : Word} (h : ∀ k ∈ rules, contributesAt cfg rf a.toNat k = none) :
    decidingOver rules cfg rf a = none := by
  rw [decidingOver_eq_findSome?, List.findSome?_eq_none_iff]
  exact fun k hk => h k (List.mem_reverse.mp hk)

/-- The rule that decides an address is one of the table and contributes there (R124). -/
theorem contributes_of_decidingOver {a : Word} {k : DecodeRule RF} {c : Contribution}
    (h : decidingOver rules cfg rf a = some (k, c)) :
    k ∈ rules ∧ k.eval cfg rf = some c ∧ c.start ≤ a.toNat ∧ a.toNat ≤ c.last := by
  obtain ⟨j, hj, hjc⟩ := List.mem_filterMap.mp (List.mem_of_getLast? h)
  obtain ⟨rfl, hc, hcov⟩ := contributesAt_eq_some_iff.mp hjc
  exact ⟨hj, hc, hcov⟩

/-- A rule decides where it contributes and no rule of a higher index does (R124). -/
theorem decidingOver_of_highest (hord : rules.Pairwise fun j k => j.index < k.index) {a : Word} {k : DecodeRule RF}
    {c : Contribution} (hk : k ∈ rules) (hc : k.eval cfg rf = some c) (hcov : c.start ≤ a.toNat ∧ a.toNat ≤ c.last)
    (habove : ∀ j ∈ rules, k.index < j.index → contributesAt cfg rf a.toNat j = none) :
    decidingOver rules cfg rf a = some (k, c) := by
  obtain ⟨before, after, rfl⟩ := List.append_of_mem hk
  obtain ⟨-, hafter, -⟩ := List.pairwise_append.mp hord
  rw [decidingOver_eq_findSome?, List.findSome?_eq_some_iff]
  refine ⟨after.reverse, k, before.reverse, by simp, contributesAt_eq_some_iff.mpr ⟨rfl, hc, hcov⟩, fun j hj => ?_⟩
  have hj := List.mem_reverse.mp hj
  exact habove j (by simp [hj]) (List.rel_of_pairwise_cons hafter hj)

/-! ## Where an entry comes from (R128) -/

/-- An entry covers what the clamp leaves of its piece (R125, R128). -/
theorem Piece.entry_clampPiece_covers {cl : Nat} {p q : Piece RF} {r : Region} (hp : p.good)
    (hq : clampPiece cl p = some q) (hr : q.entry = some r) (a : Word) :
    (r.start ≤ a ∧ a ≤ r.last) ↔ p.covers a.toNat ∧ clampTakes cl p.rule p.paint a.toNat = false := by
  obtain ⟨hle, hlast, -⟩ := clampPiece_good hp hq
  obtain ⟨-, -, -, hcov⟩ := clampPiece_covers hq
  rw [q.entry_covers (hle.trans hlast) hlast hr, hcov]

/-- After step 2 a piece carries what its rule contributes, inside the contributed range (R124). -/
theorem paintRules_origin (h : rangesOrdered rules cfg rf) {p : Piece RF} (hp : p ∈ paintRules cfg rf rules) :
    p.rule ∈ rules ∧ p.rule.eval cfg rf = some p.paint ∧ p.e ≤ p.paint.last := by
  obtain ⟨hle, hlast, -⟩ := paintRules_good h p hp
  have hcov : p.covers (BitVec.ofNat 32 p.e).toNat := by
    rw [BitVec.toNat_ofNat, Nat.mod_eq_of_lt (by omega)]
    exact ⟨hle, le_refl _⟩
  obtain ⟨hk, hc, -, he⟩ := contributes_of_decidingOver ((paintRules_covers h _ _ _).mp ⟨p, hp, hcov, rfl, rfl⟩)
  rw [BitVec.toNat_ofNat, Nat.mod_eq_of_lt (by omega)] at he
  exact ⟨hk, hc, he⟩

/-- An entry has the mode its rule contributes, lies inside the contributed range, and its last address is one the clamp
does not take (R125, R128). -/
theorem resolveOver_origin {tomb : RF → Nat} (h : rangesOrdered rules cfg rf) {r : Region}
    (hr : r ∈ resolveOver rules tomb cfg rf) :
    ∃ k ∈ rules, ∃ c, k.eval cfg rf = some c ∧ r.mode = c.mode ∧ r.mode ≠ .hidden ∧ c.start ≤ r.start.toNat ∧
      r.last.toNat ≤ c.last ∧ clampTakes (min (tomb rf) cfg.ramSize) k c r.last.toNat = false := by
  obtain ⟨hproper, -⟩ := resolveOver_ordered tomb h
  obtain ⟨hle, hmode⟩ := hproper r hr
  obtain ⟨p, hp, q, hq, hqr⟩ := mem_resolveOver.mp hr
  have hgood := paintRules_good h p hp
  have ⟨_, _, hstart⟩ := hgood
  obtain ⟨hk, hc, hlast⟩ := paintRules_origin h hp
  have hcovers := Piece.entry_clampPiece_covers hgood hq hqr
  obtain ⟨⟨-, he⟩, htake⟩ := (hcovers r.last).mp ⟨hle, BitVec.le_refl _⟩
  obtain ⟨⟨hs, -⟩, -⟩ := (hcovers r.start).mp ⟨BitVec.le_refl _, hle⟩
  obtain ⟨-, -, ⟨-, hpaint⟩, -⟩ := clampPiece_covers hq
  have hrmode : r.mode = p.paint.mode := by
    obtain ⟨-, rfl⟩ := Piece.entry_eq_some.mp hqr
    rw [hpaint]
  exact ⟨p.rule, hk, p.paint, hc, hrmode, hmode, hstart.trans hs, he.trans hlast, htake⟩

/-! ## Pieces are not merged (R128) -/

/-- After step 2 the pieces of one rule do not touch (R128). -/
theorem paintRules_apart (h : rangesOrdered rules cfg rf) (hord : rules.Pairwise fun j k => j.index < k.index) :
    (paintRules cfg rf rules).Pairwise Piece.apart := by
  induction rules using List.reverseRecOn with
  | nil => exact List.Pairwise.nil
  | append_singleton rules k ih =>
    have hinit : rangesOrdered rules cfg rf := fun j hj => h j (by simp [hj])
    obtain ⟨hordInit, -, hlast⟩ := List.pairwise_append.mp hord
    rw [paintRules_append]
    cases hp : requestedPiece cfg rf k with
    | none =>
      rw [paintRule_of_none hp]
      exact ih hinit hordInit
    | some p =>
      have hnew : ∀ q ∈ paintRules cfg rf rules, q.rule.index ≠ p.rule.index := by
        intro q hq
        obtain ⟨-, -, -, rfl⟩ := requestedPiece_eq_some.mp hp
        exact (hlast _ (paintRules_origin hinit hq).1 k (by simp)).ne
      rw [paintRule_of_some hp]
      exact paintOver_apart (paintRules_good hinit) (requestedPiece_good (h k (by simp)) hp) (paintRules_disjoint hinit)
        hnew (ih hinit hordInit)

/-- Of the pieces after step 2, two of one rule that cover neighbouring addresses are one piece (R128). -/
theorem paintRules_eq_of_neighbours (h : rangesOrdered rules cfg rf)
    (hord : rules.Pairwise fun j k => j.index < k.index) {p q : Piece RF} (hp : p ∈ paintRules cfg rf rules)
    (hq : q ∈ paintRules cfg rf rules) (hrule : p.rule.index = q.rule.index) {a : Nat} (hpa : p.covers a)
    (hqa : q.covers (a + 1)) : p = q := by
  by_contra hne
  have hsymm : Std.Symm fun p q : Piece RF => p.disjoint q ∧ p.apart q :=
    ⟨fun _ _ ⟨hd, ha⟩ => ⟨hd.symm, fun hi => (ha hi.symm).symm⟩⟩
  obtain ⟨hdisj, hapart⟩ := ((paintRules_disjoint h).and (paintRules_apart h hord)).forall hp hq hne
  have htouch := hapart hrule
  unfold Piece.covers at hpa hqa
  unfold Piece.disjoint at hdisj
  omega

/-- A mapped address lies in an entry made of a piece of its deciding rule (R124, R128). -/
theorem exists_piece_of_mapped {tomb : RF → Nat} (h : rangesOrdered rules cfg rf) {r : Region} {a : Word}
    (hr : r ∈ resolveOver rules tomb cfg rf) (hcov : r.start ≤ a ∧ a ≤ r.last) :
    ∃ p ∈ paintRules cfg rf rules, p.covers a.toNat ∧ decidingOver rules cfg rf a = some (p.rule, p.paint) ∧
      (clampPiece (min (tomb rf) cfg.ramSize) p).bind Piece.entry = some r := by
  obtain ⟨p, hp, q, hq, hqr⟩ := mem_resolveOver.mp hr
  obtain ⟨hpa, -⟩ := (Piece.entry_clampPiece_covers (paintRules_good h p hp) hq hqr a).mp hcov
  exact ⟨p, hp, hpa, (paintRules_covers h a _ _).mp ⟨p, hp, hpa, rfl, rfl⟩, Option.bind_eq_some_iff.mpr ⟨q, hq, hqr⟩⟩

theorem sameEntry_iff {ri : List Region} {a b : Word} :
    sameEntry ri a b ↔ ∃ e ∈ ri, (e.start ≤ a ∧ a ≤ e.last) ∧ e.start ≤ b ∧ b ≤ e.last := by
  simp only [sameEntry, and_assoc]

/-- An entry holds neighbouring mapped addresses exactly when one rule decides both (R128). -/
theorem resolveOver_entriesArePieces (tomb : RF → Nat) (h : rangesOrdered rules cfg rf)
    (hord : rules.Pairwise fun j k => j.index < k.index) :
    entriesArePieces rules cfg rf (resolveOver rules tomb cfg rf) := by
  intro a b hab ha hb
  constructor
  · intro hsame
    obtain ⟨e, he, hea, heb⟩ := sameEntry_iff.mp hsame
    obtain ⟨p, hp, q, hq, hqr⟩ := mem_resolveOver.mp he
    have hcovers := Piece.entry_clampPiece_covers (paintRules_good h p hp) hq hqr
    have hdecides := fun x hx => (paintRules_covers h x _ _).mp ⟨p, hp, ((hcovers x).mp hx).1, rfl, rfl⟩
    rw [hdecides a hea, hdecides b heb]
  · intro hindex
    obtain ⟨e, he, hea, -⟩ := sameEntry_iff.mp ha
    obtain ⟨f, hf, hfb, -⟩ := sameEntry_iff.mp hb
    obtain ⟨p, hp, hpa, hpd, hpe⟩ := exists_piece_of_mapped h he hea
    obtain ⟨q, hq, hqb, hqd, hqf⟩ := exists_piece_of_mapped h hf hfb
    rw [hpd, hqd] at hindex
    obtain rfl := paintRules_eq_of_neighbours h hord hp hq (Option.some.inj hindex) hpa (hab ▸ hqb)
    obtain rfl := Option.some.inj (hpe.symm.trans hqf)
    exact sameEntry_iff.mpr ⟨e, he, hea, hfb⟩

end

/-! ## The rules of EXEMPLAR_NB (R120, R131) -/

theorem RuleName.mem_ruleTable (n : RuleName) : n ∈ ruleTable := by
  have hpam : ∀ j : Fin 14, RuleName.pam j ∈ ruleTable := by decide
  cases n with
  | pam j => exact hpam j
  | lowram | vidram | mainram | xsmram | aperture => decide

theorem RuleName.rule_mem (n : RuleName) : n.rule ∈ exemplarRules :=
  mem_exemplarRules.mpr ⟨n, n.mem_ruleTable, rfl⟩

/-- Of the parameters the rules read RAM_SIZE and ALIAS_BACKING only (R120). -/
theorem RuleName.eval_congr_cfg {cfg cfg' : Config} (hram : cfg.ramSize = cfg'.ramSize)
    (halias : cfg.aliasBacking = cfg'.aliasBacking) (rf : RegFile) (n : RuleName) :
    n.eval cfg rf = n.eval cfg' rf := by
  cases n with
  | lowram => simp only [RuleName.eval, hram]
  | xsmram => simp only [RuleName.eval, halias]
  | vidram | pam | mainram | aperture => rfl

theorem Mode.ofEnables_ne_passThrough : ∀ we re, Mode.ofEnables we re ≠ .passThrough := by decide

theorem RegFile.pamMode_ne_passThrough (rf : RegFile) (j : Fin 14) : rf.pamMode j ≠ .passThrough :=
  Mode.ofEnables_ne_passThrough _ _

/-- Only the aperture, while it is enabled, is PASS-THROUGH (R138). -/
theorem RuleName.apEn_of_passThrough {cfg : Config} {rf : RegFile} {n : RuleName} {c : Contribution}
    (h : n.eval cfg rf = some c) (hmode : c.mode = .passThrough) : rf.apEn = true := by
  cases n with
  | aperture => exact (Option.ite_none_right_eq_some.mp h).1
  | pam j =>
    cases h
    exact absurd hmode (rf.pamMode_ne_passThrough j)
  | lowram | vidram | mainram | xsmram =>
    obtain ⟨-, ⟨⟩⟩ := Option.ite_none_right_eq_some.mp h
    exact nomatch hmode

theorem Mode.ramBacked_of_ne {m : Mode} (hhidden : m ≠ .hidden) (hpass : m ≠ .passThrough) : m.ramBacked = true := by
  cases m with
  | hidden => exact absurd rfl hhidden
  | passThrough => exact absurd rfl hpass
  | ram | romShadow | writeOnlyShadow => rfl

/-- TOP_MB is the low twelve bits of TOM (R19). -/
theorem RegFile.topMb_toNat (rf : RegFile) : rf.topMb.toNat = rf.tom.toNat % 4096 := by
  rw [RegFile.topMb, BitVec.extractLsb'_toNat, Nat.shiftRight_zero]

/-- TOMB is TOP_MB in units of 1 MiB (R132). -/
theorem RegFile.tomb_eq (rf : RegFile) : rf.tomb = rf.tom.toNat % 4096 * 2 ^ 20 := by
  rw [← RegFile.topMb_toNat]
  exact Nat.shiftLeft_eq _ _

end Sys2Proof.Machine

open Sys2Proof Sys2Proof.Machine

/-- Settles O19: the rules of EXEMPLAR_NB contribute ordered ranges, whatever the parameters. -/
theorem resolverMatchesArbiter : Obligations.ResolverMatchesArbiter :=
  fun cfg rf a => regionAt_resolveOver (exemplarRules_rangesOrdered cfg rf) a

/-- Settles O22: the clauses of R139, as `exemplarNb_valid` has them. -/
theorem ruleTableValid : Obligations.RuleTableValid :=
  ⟨exemplarNb_valid.orderTotal, exemplarNb_valid.inRange,
    fun cfg rf rf' k hk h => (exemplarNb_valid.readsRelevant cfg rf rf' h).2 k hk⟩

/-- Settles O56: the pieces of one rule never touch, and an entry is what the clamp leaves of one piece. -/
theorem entriesAreNotMerged : Obligations.EntriesAreNotMerged :=
  ⟨fun cfg rf => resolveOver_entriesArePieces _ (exemplarRules_rangesOrdered cfg rf) exemplarRules_ordered,
    fun _ hv _ rf hcfg => resolveOver_entriesArePieces _ (hv.rangesOrdered hcfg rf) hv.orderTotal⟩

/-- Settles O23: an entry the clamp does not concern comes from XSMRAM or the aperture, and the aperture's are
PASS-THROUGH. -/
theorem nothingRamBackedAboveClamp : Obligations.NothingRamBackedAboveClamp := by
  intro cfg rf e he hpass habove
  obtain ⟨k, hk, c, hc, hmode, hhidden, hstart, hlast, htake⟩ :=
    resolveOver_origin (exemplarRules_rangesOrdered cfg rf) he
  obtain ⟨n, -, rfl⟩ := mem_exemplarRules.mp hk
  rw [← RegFile.tomb_eq] at habove
  have hclamp : n.clamp = false := by
    simpa [clampTakes, ← hmode, Mode.ramBacked_of_ne hhidden hpass, RuleName.rule, habove] using htake
  cases n with
  | xsmram =>
    obtain ⟨hen, ⟨⟩⟩ := Option.ite_none_right_eq_some.mp hc
    exact ⟨hstart, hlast, Bool.and_eq_true_iff.mp hen⟩
  | aperture =>
    obtain ⟨-, ⟨⟩⟩ := Option.ite_none_right_eq_some.mp hc
    exact absurd hmode hpass
  | lowram | vidram | pam | mainram => exact nomatch hclamp

/-- Settles O24: the rules read the decode-relevant registers and two parameters, the clamp value TOM and RAM_SIZE. -/
theorem resolverReadsOnlyItsInputs : Obligations.ResolverReadsOnlyItsInputs := by
  intro cfg cfg' rf rf' hram halias hregs
  have hrelevant : ∀ r : StorageReg, r.decodeRelevant = true → rf.get r = rf'.get r := by
    intro r hr
    have hne : ¬ (r = .lockctl ∨ r = .scratch) := by simp [← StorageReg.decodeRelevant_eq_false_iff, hr]
    exact hregs r (fun e => hne (.inl e)) (fun e => hne (.inr e))
  obtain ⟨htomb, heval⟩ := exemplarNb_valid.readsRelevant cfg rf rf' hrelevant
  refine resolveOver_congr (congrArg₂ min htomb hram) fun k hk => (heval k hk).trans ?_
  obtain ⟨n, -, rfl⟩ := mem_exemplarRules.mp hk
  exact n.eval_congr_cfg hram halias rf'
end

section
/-!
PROOFS. LOOKUP (41_resolver.md R133 to R141): the response word by the mode and the direction, the ranges of the rules of
EXEMPLAR_NB, and what a LOOKUP answers where each of them decides.
-/
namespace Sys2Proof.Machine

/-! ## The response word of a LOOKUP (R84, R91, R141) -/

/-- The response word of a LOOKUP whose address is mapped with a mode and an offset, or is unmapped: three zero bits,
ROUTE and MODE make up the top byte. -/
def lookupWord (dir : Dir) : Option (Mode × Word) → Rsp
  | none => 0
  | some (mode, offset) =>
    match mode, dir with
    | .ram, _ => (0x0B : BitVec 8) ++ offset
    | .romShadow, .read => (0x09 : BitVec 8) ++ offset
    | .romShadow, .write => (0x19 : BitVec 8) ++ (0 : Word)
    | .writeOnlyShadow, .read => (0x02 : BitVec 8) ++ (0 : Word)
    | .writeOnlyShadow, .write => (0x0A : BitVec 8) ++ offset
    | .passThrough, _ => (0x14 : BitVec 8) ++ offset
    | .hidden, _ => 0

/-- A response word is its top byte over VAL (R84). -/
theorem Response.pack_of_top {route : Route} {mode : Mode} {top : BitVec 8}
    (h : (0 : BitVec 3) ++ route.code ++ mode.code = top) (val : Word) :
    (Response.mk route mode val).pack = top ++ val := by
  rw [← h]
  rfl

theorem plainResponse_zero_pack : (plainResponse 0).pack = 0 := (plainResponse_pack 0).trans (by decide)

/-- The response of a LOOKUP in an entry, by its mode and the direction (R61, R141). -/
theorem lookupResponse_pack_of_some {ri : List Region} {dir : Dir} {a : Word} {r : Region} (h : regionAt ri a = some r) :
    (lookupResponse ri dir a).pack = lookupWord dir (some (r.mode, r.offset a)) := by
  simp only [lookupResponse, h]
  cases r.mode with
  | hidden => cases dir <;> exact plainResponse_zero_pack
  | ram | romShadow | writeOnlyShadow | passThrough => cases dir <;> exact Response.pack_of_top (by decide) _

theorem lookupResponse_pack (ri : List Region) (dir : Dir) (a : Word) :
    (lookupResponse ri dir a).pack = lookupWord dir ((regionAt ri a).map fun r => (r.mode, r.offset a)) := by
  cases h : regionAt ri a with
  | none => simp only [lookupResponse, h]; exact plainResponse_zero_pack
  | some r => exact lookupResponse_pack_of_some h

/-- LOOKUP adds the response word of the covering entry and leaves the rest (R141). -/
theorem exec_lookup_regionAt (s : State) (dir : Dir) (a : Word) :
    exec (.lookup dir a) s = .next
      { s with
        responses := s.responses ++ [lookupWord dir ((regionAt s.ri a).map fun r => (r.mode, r.offset a))] } := by
  rw [← lookupResponse_pack]
  exact exec_eq_next.mpr .lookup

/-- Where the installation is the resolver's list, LOOKUP answers the word of the arbiter's answer (R120, R141). -/
theorem exec_lookup_of_arbiter {s : State} (h : s.ri = resolve s.cfg s.rf) {dir : Dir} {a : Word} {w : Rsp}
    (hw : lookupWord dir (arbiterAnswer s.cfg s.rf a) = w) :
    exec (.lookup dir a) s = .next { s with responses := s.responses ++ [w] } := by
  rw [exec_lookup_regionAt, h, resolverMatchesArbiter, hw]

/-- In an ordered installation the entry found for an address is any entry that covers it: there is one at most (R33). -/
theorem regionAt_of_mem {ri : List Region} (h : regionsOrdered ri) {a : Word} {e : Region} (he : e ∈ ri)
    (hcov : e.start ≤ a ∧ a ≤ e.last) : regionAt ri a = some e := by
  cases hf : regionAt ri a with
  | none => exact absurd hcov (regionAt_eq_none.mp hf e he)
  | some f =>
    obtain ⟨hmem, hf⟩ := regionAt_eq_some hf
    by_contra hne
    have hsymm : Std.Symm fun p q : Region => p.last < q.start ∨ q.last < p.start := ⟨fun _ _ => Or.symm⟩
    have hpairwise : ri.Pairwise fun p q => p.last < q.start ∨ q.last < p.start := h.2.imp Or.inl
    have hapart := hpairwise.forall hmem he fun heq => hne (congrArg some heq)
    bv_omega

section

variable {RF : Type} {rules : List (DecodeRule RF)} {cfg : Config} {rf : RF} {a : Word}

/-- The arbiter's answer at an address a rule decides (R124, R125). -/
theorem arbiterOver_of_deciding {tomb : RF → Nat} {k : DecodeRule RF} {c : Contribution}
    (h : decidingOver rules cfg rf a = some (k, c)) :
    arbiterOver rules tomb cfg rf a =
      if c.mode = .hidden then none
      else if clampTakes (min (tomb rf) cfg.ramSize) k c a.toNat then none
      else some (c.mode, BitVec.ofNat 32 (c.backing + (a.toNat - c.start))) := by
  rw [arbiterOver, h]
  rfl

theorem arbiterOver_of_undecided {tomb : RF → Nat} (h : decidingOver rules cfg rf a = none) :
    arbiterOver rules tomb cfg rf a = none := by
  rw [arbiterOver, h]

/-- Where a rule without the clamp decides, the answer is its contribution (R125). -/
theorem arbiterOver_of_unclamped {tomb : RF → Nat} {k : DecodeRule RF} {c : Contribution}
    (h : decidingOver rules cfg rf a = some (k, c)) (hclamp : k.clamp = false) (hmode : c.mode ≠ .hidden) :
    arbiterOver rules tomb cfg rf a = some (c.mode, BitVec.ofNat 32 (c.backing + (a.toNat - c.start))) := by
  rw [arbiterOver_of_deciding h, if_neg hmode, clampTakes, hclamp, Bool.false_and, Bool.false_and]
  rfl

/-- An offset as a number, narrowed once, is the offset in 32-bit arithmetic (R55, R142). -/
theorem ofNat_backing_add_distance (b : Word) {start : Word} (h : start.toNat ≤ a.toNat) :
    BitVec.ofNat 32 (b.toNat + (a.toNat - start.toNat)) = b + (a - start) := by
  apply BitVec.eq_of_toNat_eq
  simp only [BitVec.toNat_ofNat, BitVec.toNat_add, BitVec.toNat_sub]
  omega

/-- Where a clamped rule whose backing is its start decides, the word is that of its mode at the address itself, below the
clamp value (R124, R125). -/
theorem lookupWord_of_identity (dir : Dir) {tomb : RF → Nat} {k : DecodeRule RF} {c : Contribution}
    (hd : decidingOver rules cfg rf a = some (k, c)) (hclamp : k.clamp = true) (hback : c.backing = c.start)
    (hpass : c.mode ≠ .passThrough) :
    lookupWord dir (arbiterOver rules tomb cfg rf a) =
      if a.toNat < min (tomb rf) cfg.ramSize then lookupWord dir (some (c.mode, a)) else 0 := by
  obtain ⟨-, -, hcov, -⟩ := contributes_of_decidingOver hd
  have hoff : BitVec.ofNat 32 (c.backing + (a.toNat - c.start)) = a := by
    rw [hback, Nat.add_sub_cancel' hcov, BitVec.ofNat_toNat, BitVec.setWidth_eq]
  rw [arbiterOver_of_deciding hd, hoff]
  by_cases hhidden : c.mode = .hidden
  · rw [if_pos hhidden, hhidden]
    exact (ite_self _).symm
  · rw [if_neg hhidden, clampTakes, hclamp, Mode.ramBacked_of_ne hhidden hpass, Bool.and_self, Bool.true_and]
    by_cases hlt : a.toNat < min (tomb rf) cfg.ramSize
    · rw [if_pos hlt, if_neg fun h => absurd hlt (not_lt.mpr (of_decide_eq_true h))]
    · rw [if_neg hlt, if_pos (decide_eq_true (not_lt.mp hlt))]
      rfl

end

/-! ## The rules of EXEMPLAR_NB at one address (R133 to R138) -/

/-- XSMRAM is enabled and an address lies in its range (R137). -/
def RegFile.aliasReaches (rf : RegFile) (a : Word) : Prop :=
  0xFEDA0000 ≤ a.toNat ∧ a.toNat ≤ 0xFEDBFFFF ∧ rf.smramc.getLsbD 6 = true ∧ rf.esmramc.getLsbD 5 = true

/-- The first and the last address of the decoded space at which a rule can contribute, whatever the registers hold. -/
def RuleName.window : RuleName → Nat × Nat
  | .lowram => (0x00000000, 0x0009FFFF)
  | .vidram => (0x000A0000, 0x000BFFFF)
  | .pam j => (pamStart j, pamStart j + 0x3FFF)
  | .mainram => (0x00100000, 0xFFFFFFFF)
  | .xsmram => (0xFEDA0000, 0xFEDBFFFF)
  | .aperture => (0x00000000, 0xFFFFFFFF)

/-- An address lies in the window of a rule. -/
def RuleName.inWindow (n : RuleName) (a : Word) : Prop := n.window.1 ≤ a.toNat ∧ a.toNat ≤ n.window.2

section

variable {cfg : Config} {rf : RegFile} {n : RuleName} {a : Word}

/-- APBYTES is 4 MiB shifted by the size code, codes 7 to 15 acting as 6 (R132). -/
theorem RegFile.apBytes_eq (rf : RegFile) : rf.apBytes = 0x00400000 * 2 ^ min (rf.apsize.toNat % 16) 6 := by
  have hcode : rf.apCode = min (rf.apsize.toNat % 16) 6 := by
    rw [RegFile.apCode, RegFile.apSz, BitVec.extractLsb'_toNat, Nat.shiftRight_zero]
  rw [← hcode]
  exact Nat.shiftLeft_eq _ _

/-- TSEG is 128 KiB shifted by T_SZ while T_EN is 1 (R132). -/
theorem RegFile.tseg_eq (rf : RegFile) :
    rf.tseg = if rf.esmramc.getLsbD 0 then 0x20000 * 2 ^ (rf.esmramc.extractLsb' 1 2).toNat else 0 :=
  if_congr Iff.rfl (Nat.shiftLeft_eq _ _) rfl

/-- A rule contributes inside its window only. -/
theorem RuleName.inWindow_of_contributes {c : Contribution} (hc : n.eval cfg rf = some c)
    (hcov : c.start ≤ a.toNat ∧ a.toNat ≤ c.last) : n.inWindow a := by
  have ha : a.toNat ≤ 0xFFFFFFFF := by omega
  cases n with
  | pam j =>
    cases hc
    exact hcov
  | mainram =>
    obtain ⟨-, ⟨⟩⟩ := Option.ite_none_right_eq_some.mp hc
    exact ⟨hcov.1, ha⟩
  | aperture => exact ⟨Nat.zero_le _, ha⟩
  | lowram | vidram | xsmram =>
    obtain ⟨-, ⟨⟩⟩ := Option.ite_none_right_eq_some.mp hc
    exact hcov

/-- The windows of the clamped rules do not meet (R133 to R136). -/
theorem windows_disjoint : ∀ m ∈ ruleTable, ∀ n ∈ ruleTable, m.clamp = true → n.clamp = true →
    m = n ∨ m.window.2 < n.window.1 ∨ n.window.2 < m.window.1 := by
  decide

/-- The aperture contributes nothing where it does not reach (R138). -/
theorem contributesAt_aperture_eq_none (hap : ¬ rf.apertureReaches a) :
    contributesAt cfg rf a.toNat RuleName.aperture.rule = none := by
  refine contributesAt_eq_none_iff.mpr fun c hc hcov => hap ?_
  obtain ⟨hen, ⟨⟩⟩ := Option.ite_none_right_eq_some.mp hc
  have hpos := rf.apBytes_bounds.1
  simp only at hcov
  refine ⟨hen, hcov.1, ?_⟩
  rw [← RegFile.apBytes_eq]
  omega

/-- XSMRAM contributes nothing where it does not reach (R137). -/
theorem contributesAt_xsmram_eq_none (halias : ¬ rf.aliasReaches a) :
    contributesAt cfg rf a.toNat RuleName.xsmram.rule = none := by
  refine contributesAt_eq_none_iff.mpr fun c hc hcov => halias ?_
  obtain ⟨hen, ⟨⟩⟩ := Option.ite_none_right_eq_some.mp hc
  exact ⟨hcov.1, hcov.2, Bool.and_eq_true_iff.mp hen⟩

/-- Where neither the aperture nor XSMRAM reaches, only a clamped rule with the address in its window can
contribute. -/
theorem contributesAt_rule_eq_none (hap : ¬ rf.apertureReaches a) (halias : ¬ rf.aliasReaches a)
    (h : n.clamp = true → ¬ n.inWindow a) : contributesAt cfg rf a.toNat n.rule = none := by
  cases hn : n.clamp with
  | true => exact contributesAt_eq_none_iff.mpr fun c hc hcov => h hn (RuleName.inWindow_of_contributes hc hcov)
  | false =>
    cases n with
    | aperture => exact contributesAt_aperture_eq_none hap
    | xsmram => exact contributesAt_xsmram_eq_none halias
    | lowram | vidram | pam | mainram => exact nomatch hn

/-- Where neither the aperture nor XSMRAM reaches, in the window of a clamped rule no other rule contributes. -/
theorem contributesAt_other_eq_none (hap : ¬ rf.apertureReaches a) (halias : ¬ rf.aliasReaches a)
    (hn : n.clamp = true) (hw : n.inWindow a) {m : RuleName} (hne : m ≠ n) :
    contributesAt cfg rf a.toNat m.rule = none := by
  refine contributesAt_rule_eq_none hap halias fun hm hmw => ?_
  unfold RuleName.inWindow at hw hmw
  rcases windows_disjoint m m.mem_ruleTable n n.mem_ruleTable hm hn with heq | hlt | hlt
  · exact hne heq
  · omega
  · omega

/-- A clamped rule maps to RAM at the same address: its backing is its start, its mode is not PASS-THROUGH (R133 to
R136). -/
theorem RuleName.identity_of_clamp {c : Contribution} (hn : n.clamp = true) (hc : n.eval cfg rf = some c) :
    c.backing = c.start ∧ c.mode ≠ .passThrough := by
  cases n with
  | pam j =>
    cases hc
    exact ⟨rfl, rf.pamMode_ne_passThrough j⟩
  | lowram | vidram | mainram =>
    obtain ⟨-, ⟨⟩⟩ := Option.ite_none_right_eq_some.mp hc
    exact ⟨rfl, nofun⟩
  | xsmram | aperture => exact nomatch hn

/-- What a clamped rule contributes decides its window where neither the aperture nor XSMRAM reaches (R124). -/
theorem decidingOver_of_window (hap : ¬ rf.apertureReaches a) (halias : ¬ rf.aliasReaches a) (hn : n.clamp = true)
    (hw : n.inWindow a) : decidingOver exemplarRules cfg rf a = contributesAt cfg rf a.toNat n.rule := by
  have hother := fun m (hne : m ≠ n) => contributesAt_other_eq_none (cfg := cfg) hap halias hn hw hne
  cases hx : contributesAt cfg rf a.toNat n.rule with
  | none =>
    refine decidingOver_eq_none fun k hk => ?_
    obtain ⟨m, -, rfl⟩ := mem_exemplarRules.mp hk
    by_cases hm : m = n
    · rw [hm, hx]
    · exact hother m hm
  | some x =>
    obtain ⟨k, c⟩ := x
    obtain ⟨rfl, hc, hcov⟩ := contributesAt_eq_some_iff.mp hx
    refine decidingOver_of_highest exemplarRules_ordered n.rule_mem hc hcov fun k hk hlt => ?_
    obtain ⟨m, -, rfl⟩ := mem_exemplarRules.mp hk
    exact hother m fun e => hlt.ne (e ▸ rfl)

/-- The word in the window of a clamped rule, where neither the aperture nor XSMRAM reaches: the mode the rule
contributes, below the clamp value (R124, R125, R133 to R136). -/
theorem lookupWord_of_window (dir : Dir) (hap : ¬ rf.apertureReaches a) (halias : ¬ rf.aliasReaches a)
    (hn : n.clamp = true) (hw : n.inWindow a) :
    lookupWord dir (arbiterAnswer cfg rf a) =
      (n.eval cfg rf).elim 0 fun c =>
        if (c.start ≤ a.toNat ∧ a.toNat ≤ c.last) ∧ a.toNat < min (rf.tom.toNat % 4096 * 2 ^ 20) cfg.ramSize
        then lookupWord dir (some (c.mode, a)) else 0 := by
  have hd := decidingOver_of_window (cfg := cfg) hap halias hn hw
  rw [← RegFile.tomb_eq]
  cases hc : n.eval cfg rf with
  | none =>
    have hnone : decidingOver exemplarRules cfg rf a = none :=
      hd.trans (contributesAt_eq_none_iff.mpr fun c hc' => nomatch hc.symm.trans hc')
    rw [arbiterAnswer, arbiterOver_of_undecided hnone]
    rfl
  | some c =>
    obtain ⟨hback, hpass⟩ := RuleName.identity_of_clamp hn hc
    by_cases hcov : c.start ≤ a.toNat ∧ a.toNat ≤ c.last
    · have hsome := hd.trans (contributesAt_eq_some_iff.mpr ⟨rfl, hc, hcov⟩)
      rw [arbiterAnswer, lookupWord_of_identity dir hsome hn hback hpass, Option.elim_some]
      exact if_congr (and_iff_right hcov).symm rfl rfl
    · have hnone : decidingOver exemplarRules cfg rf a = none :=
        hd.trans (contributesAt_eq_none_iff.mpr fun c' hc' => Option.some.inj (hc.symm.trans hc') ▸ hcov)
      rw [arbiterAnswer, arbiterOver_of_undecided hnone, Option.elim_some, if_neg fun h => hcov h.1]
      rfl

/-- The word in the window of a clamped rule that contributes RAM at the same address while a condition holds. -/
theorem lookupWord_of_ramWindow (dir : Dir) (hap : ¬ rf.apertureReaches a) (halias : ¬ rf.aliasReaches a)
    (hn : n.clamp = true) (hw : n.inWindow a) {P : Prop} [Decidable P] {lo hi : Nat}
    (heval : n.eval cfg rf = if P then some ⟨lo, hi, .ram, lo⟩ else none) :
    lookupWord dir (arbiterAnswer cfg rf a) =
      if P ∧ (lo ≤ a.toNat ∧ a.toNat ≤ hi) ∧ a.toNat < min (rf.tom.toNat % 4096 * 2 ^ 20) cfg.ramSize
      then (0x0B : BitVec 8) ++ a else 0 := by
  rw [lookupWord_of_window dir hap halias hn hw, heval, ite_and]
  split <;> rfl

/-- In the strip from 0x000F8000 to 0x000FFFFF no rule but the aperture contributes (R135). -/
theorem decidingOver_strip (hap : ¬ rf.apertureReaches a) (hlo : 0x000F8000 ≤ a.toNat) (hhi : a.toNat ≤ 0x000FFFFF) :
    decidingOver exemplarRules cfg rf a = none := by
  have hoff : ∀ m ∈ ruleTable, m.clamp = true → m.window.2 < 0x000F8000 ∨ 0x000FFFFF < m.window.1 := by decide
  have halias : ¬ rf.aliasReaches a := fun h => by have := h.1; omega
  refine decidingOver_eq_none fun k hk => ?_
  obtain ⟨m, hm, rfl⟩ := mem_exemplarRules.mp hk
  refine contributesAt_rule_eq_none hap halias fun hclamp hw => ?_
  have hmoff := hoff m hm hclamp
  unfold RuleName.inWindow at hw
  omega

/-- XSMRAM decides where it reaches and the aperture, the one rule above it, does not (R124, R137). -/
theorem decidingOver_xsmram (hap : ¬ rf.apertureReaches a) (halias : rf.aliasReaches a) :
    decidingOver exemplarRules cfg rf a =
      some (RuleName.xsmram.rule, ⟨0xFEDA0000, 0xFEDBFFFF, .ram, cfg.aliasBacking.toNat⟩) := by
  obtain ⟨hlo, hhi, hopen, hcache⟩ := halias
  refine decidingOver_of_highest exemplarRules_ordered (RuleName.rule_mem _)
    (if_pos (Bool.and_eq_true_iff.mpr ⟨hopen, hcache⟩)) ⟨hlo, hhi⟩ fun k hk hlt => ?_
  obtain ⟨m, hm, rfl⟩ := mem_exemplarRules.mp hk
  have habove : ∀ m ∈ ruleTable, RuleName.xsmram.index < m.index → m = .aperture := by decide
  rw [habove m hm hlt]
  exact contributesAt_aperture_eq_none hap

/-- The aperture decides wherever it reaches: no rule is above it (R138). -/
theorem decidingOver_aperture (hap : rf.apertureReaches a) :
    decidingOver exemplarRules cfg rf a =
      some (RuleName.aperture.rule, ⟨rf.apbase.toNat, rf.apbase.toNat + rf.apBytes - 1, .passThrough, 0⟩) := by
  obtain ⟨hen, hlo, hhi⟩ := hap
  rw [← RegFile.apBytes_eq] at hhi
  refine decidingOver_of_highest exemplarRules_ordered (RuleName.rule_mem _) (if_pos hen)
    ⟨hlo, Nat.le_sub_one_of_lt hhi⟩ fun k hk hlt => ?_
  obtain ⟨m, hm, rfl⟩ := mem_exemplarRules.mp hk
  have habove : ∀ m ∈ ruleTable, ¬ RuleName.aperture.index < m.index := by decide
  exact absurd hlt (habove m hm)

/-- The register and the bits of PAM sub-range `j` (R20, R135). -/
theorem RegFile.pamMode_eq (rf : RegFile) (j : Fin 14) :
    rf.pamMode j =
      let pam := [rf.pam1, rf.pam2, rf.pam3, rf.pam4, rf.pam5, rf.pam6, rf.pam7].getD (j.val / 2) 0
      Mode.ofEnables (pam.getLsbD (4 * (j.val % 2) + 1)) (pam.getLsbD (4 * (j.val % 2))) := by
  have hpam : rf.pamOf j = [rf.pam1, rf.pam2, rf.pam3, rf.pam4, rf.pam5, rf.pam6, rf.pam7].getD (j.val / 2) 0 := by
    fin_cases j <;> rfl
  simp only [RegFile.pamMode, hpam]

end

end Sys2Proof.Machine

open Sys2Proof Sys2Proof.Machine

/-- Settles O27: in an ordered installation the entry found is the one that covers the address; it is not HIDDEN. -/
theorem lookupAnswersRoute : Obligations.LookupAnswersRoute := by
  intro s dir a hord
  rw [exec_lookup_regionAt]
  refine ⟨fun hnone => ?_, fun e he hlo hhi => ?_⟩
  · rw [regionAt_eq_none.mpr hnone]
    rfl
  · rw [regionAt_of_mem hord he ⟨hlo, hhi⟩]
    rfl

/-- Settles O28: below 0x000A0000 is the window of LOWRAM, from there on that of VIDRAM. -/
theorem lookupBelowPam : Obligations.LookupBelowPam := by
  intro s dir a hri hap ha
  have halias : ¬ s.rf.aliasReaches a := fun h => by have := h.1; omega
  refine exec_lookup_of_arbiter hri ?_
  by_cases hlow : a.toNat < 0x000A0000
  · have hhi := Nat.le_sub_one_of_lt hlow
    refine (lookupWord_of_ramWindow (n := .lowram) dir hap halias rfl ⟨Nat.zero_le _, hhi⟩ rfl).trans
      (if_congr ⟨?_, ?_⟩ rfl rfl)
    · exact fun ⟨_, _, hcl⟩ => ⟨.inl hlow, hcl⟩
    · exact fun ⟨_, hcl⟩ => ⟨by omega, ⟨Nat.zero_le _, hhi⟩, hcl⟩
  · have hw : RuleName.vidram.inWindow a := ⟨not_lt.mp hlow, Nat.le_sub_one_of_lt ha⟩
    refine (lookupWord_of_ramWindow (n := .vidram) dir hap halias rfl hw rfl).trans (if_congr ⟨?_, ?_⟩ rfl rfl)
    · exact fun ⟨hen, _, hcl⟩ => ⟨.inr hen, hcl⟩
    · exact fun ⟨hor, hcl⟩ => ⟨hor.resolve_left hlow, hw, hcl⟩

/-- Settles O29: a PAM sub-range is the window of its rule, and in the strip no rule decides. -/
theorem lookupInPam : Obligations.LookupInPam := by
  intro s dir a hri hap
  refine ⟨fun j hj hlo hhi => exec_lookup_of_arbiter hri ?_, fun hlo hhi => exec_lookup_of_arbiter hri ?_⟩
  · have halias : ¬ s.rf.aliasReaches a := fun h => by have := h.1; omega
    have hw : (RuleName.pam ⟨j, hj⟩).inWindow a := ⟨hlo, by simp only [RuleName.window, pamStart]; omega⟩
    refine (lookupWord_of_window dir hap halias rfl hw).trans (if_congr (and_iff_right hw) ?_ rfl)
    rw [RegFile.pamMode_eq]
    dsimp only
    generalize [s.rf.pam1, s.rf.pam2, s.rf.pam3, s.rf.pam4, s.rf.pam5, s.rf.pam6, s.rf.pam7].getD (j / 2) 0 = pam
    cases pam.getLsbD (4 * (j % 2) + 1) <;> cases pam.getLsbD (4 * (j % 2)) <;> cases dir <;> rfl
  · rw [arbiterAnswer, arbiterOver_of_undecided (decidingOver_strip hap hlo hhi)]
    rfl

/-- Settles O30: the window of MAINRAM, whose contribution ends at MAINTOP, which is at most TOMB. -/
theorem lookupMainRam : Obligations.LookupMainRam := by
  intro s dir a hri hap ha halias tseg
  have htop : s.rf.mainTop = s.rf.tom.toNat % 4096 * 2 ^ 20 - tseg := by
    rw [RegFile.mainTop, RegFile.tomb_eq, RegFile.tseg_eq]
  have hw : RuleName.mainram.inWindow a := ⟨ha, Nat.le_of_lt_succ a.isLt⟩
  refine exec_lookup_of_arbiter hri ((lookupWord_of_ramWindow dir hap halias rfl hw rfl).trans (if_congr ?_ rfl rfl))
  rw [htop]
  omega

/-- Settles O31: where the aperture does not reach, XSMRAM decides, and the clamp does not concern it. -/
theorem lookupSmramAlias : Obligations.LookupSmramAlias := by
  intro s dir a hri hap hopen hcache hlo hhi
  refine exec_lookup_of_arbiter hri ?_
  rw [arbiterAnswer, arbiterOver_of_unclamped (decidingOver_xsmram hap ⟨hlo, hhi, hopen, hcache⟩) rfl nofun,
    ← ofNat_backing_add_distance (start := 0xFEDA0000) s.cfg.aliasBacking hlo]
  rfl

/-- Settles O32: the aperture is the highest rule, the clamp does not concern it, and no other rule is PASS-THROUGH. -/
theorem lookupAperture : Obligations.LookupAperture := by
  intro s hri
  refine ⟨fun hen dir a hlo hhi => exec_lookup_of_arbiter hri ?_, fun hdis e he hmode => ?_⟩
  · have hoff := (ofNat_backing_add_distance 0 hlo).trans (BitVec.zero_add _)
    rw [arbiterAnswer, arbiterOver_of_unclamped (decidingOver_aperture ⟨hen, hlo, hhi⟩) rfl nofun, ← hoff]
    rfl
  · rw [hri] at he
    obtain ⟨k, hk, c, hc, hce, -⟩ := resolveOver_origin (exemplarRules_rangesOrdered _ _) he
    obtain ⟨n, -, rfl⟩ := mem_exemplarRules.mp hk
    have hen := RuleName.apEn_of_passThrough hc (hce.symm.trans hmode)
    exact Bool.false_ne_true (hdis.symm.trans hen)
end

section
/-!
PROOFS. The configuration port (42_config_port.md R160 to R166): the address a data access reaches, what a read answers,
the rows of the transition table for writes, and what selects the device.
-/
namespace Sys2Proof.Machine

/-! ## The two transactions of the port (R161, R162) -/

/-- IORD adds the port's byte, zero-extended, to the responses (R84, R162). -/
theorem exec_iord (p : Port) (s : State) :
    exec (.iord p) s = .next { s with responses := s.responses ++ [(0 : BitVec 32) ++ s.cp.readPort p] } := by
  rw [exec_eq_next.mpr .iord, State.respondVal_eq, zero_append_setWidth_byte]

/-- IOWR changes the port alone, and never fails (R161). -/
theorem exec_iowr (p : Port) (v : Byte) (s : State) :
    exec (.iowr p v) s = .next { s with cp := s.cp.write s.cfg p v } := exec_eq_next.mpr .iowr

/-! ## The cell of a data access (R163) -/

section

variable {cfg : Config} {cp : ConfigPort}

/-- The address by the two sub-ranges: device 0 for an index up to 0x2F, else the selected device (R163). -/
theorem ConfigPort.cell_eq (cp : ConfigPort) :
    cp.cell = 256 * (if cp.idx.toNat ≤ 0x2F then 0 else cp.sel.toNat) + cp.idx.toNat := by
  have hdev : cp.dev.toNat = if cp.idx.toNat ≤ 0x2F then 0 else cp.sel.toNat :=
    apply_ite BitVec.toNat (cp.idx ≤ sharedMax) 0 cp.sel
  rw [← hdev]
  rfl

theorem ConfigPort.cell_of_shared (h : cp.idx.toNat ≤ 0x2F) : cp.cell = cp.idx.toNat := by
  rw [ConfigPort.cell_eq, if_pos h, Nat.mul_zero, Nat.zero_add]

theorem ConfigPort.cell_of_not_shared (h : 0x2F < cp.idx.toNat) : cp.cell = 256 * cp.sel.toNat + cp.idx.toNat := by
  rw [ConfigPort.cell_eq, if_neg (Nat.not_le_of_lt h)]

/-! ## Data reads and data writes (R161 to R164) -/

theorem ConfigPort.readPort_data_locked (h : cp.locked = true) : cp.readPort .data = 0x00 := if_pos h

theorem ConfigPort.readPort_data_unlocked (h : cp.locked = false) : cp.readPort .data = cp.bank.read cp.cell :=
  if_neg (Bool.eq_false_iff.mp h)

/-- A data write in the shared sub-range stores in device 0, and at DEVSEL_INDEX selects the device (R163, R164). -/
theorem ConfigPort.write_data_of_shared (hl : cp.locked = false) (h : cp.idx.toNat ≤ 0x2F) (v : Byte) :
    cp.write cfg .data v =
      { cp with
        bank := cp.bank.write cp.idx.toNat v
        sel := if cp.idx = cfg.devselIndex then v.setWidth 4 else cp.sel } := by
  have hshared : cp.idx ≤ sharedMax := h
  have hlow : v.extractLsb' 0 4 = v.setWidth 4 := (BitVec.setWidth_eq_extractLsb' (by decide)).symm
  rw [ConfigPort.write_data_unlocked hl, ConfigPort.cell_of_shared h, hlow]
  simp only [hshared, true_and]

/-- A data write above the shared sub-range stores in the selected device and selects none (R163, R164). -/
theorem ConfigPort.write_data_of_not_shared (hl : cp.locked = false) (h : 0x2F < cp.idx.toNat) (v : Byte) :
    cp.write cfg .data v = { cp with bank := cp.bank.write (256 * cp.sel.toNat + cp.idx.toNat) v } := by
  have hnot : ¬ cp.idx ≤ sharedMax := Nat.not_le_of_lt h
  rw [ConfigPort.write_data_unlocked hl, ConfigPort.cell_of_not_shared h, if_neg fun hsel => hnot hsel.1]

theorem ConfigPort.write_data_locked_eq (cfg : Config) (cp : ConfigPort) (v : Byte) :
    (cp.write cfg .data v).locked = cp.locked := by
  cases hl : cp.locked
  · rw [ConfigPort.write_data_unlocked hl, hl]
  · rw [ConfigPort.write_locked hl, if_neg nofun, hl]

theorem ConfigPort.write_data_idx (cfg : Config) (cp : ConfigPort) (v : Byte) : (cp.write cfg .data v).idx = cp.idx := by
  cases hl : cp.locked
  · rw [ConfigPort.write_data_unlocked hl]
  · rw [ConfigPort.write_locked hl, if_neg nofun]

/-- A data write while UNLOCKED reads back from the cell it reached, also where it selects another device (R163). -/
theorem ConfigPort.readPort_write_data (hbank : cp.bank.wf = true) (hl : cp.locked = false) (v : Byte) :
    (cp.write cfg .data v).readPort .data = v := by
  have hstill : (cp.write cfg .data v).locked = false := (cp.write_data_locked_eq cfg v).trans hl
  rw [ConfigPort.readPort_data_unlocked hstill, ConfigPort.cell_write_data, ConfigPort.write_data_unlocked hl]
  exact Memory.read_write_same hbank cp.cell v

/-- A port write selects a device only as a data write while UNLOCKED at DEVSEL_INDEX (R164). -/
theorem ConfigPort.of_write_sel_ne {p : Port} {v : Byte} (h : (cp.write cfg p v).sel ≠ cp.sel) :
    p = .data ∧ cp.locked = false ∧ cp.idx = cfg.devselIndex := by
  cases hl : cp.locked with
  | true =>
    rw [ConfigPort.write_locked hl] at h
    split at h <;> exact absurd rfl h
  | false =>
    cases p with
    | index =>
      rw [ConfigPort.write_index_unlocked hl] at h
      split at h <;> exact absurd rfl h
    | data =>
      rw [ConfigPort.write_data_unlocked hl] at h
      exact ⟨rfl, rfl, (ite_ne_right_iff.mp h).1.2⟩

end

end Sys2Proof.Machine

open Sys2Proof Sys2Proof.Machine

/-- Settles O33: IORD answers the byte of its port; the data port's is 0 while LOCKED, else that of the cell reached. -/
theorem iordAnswersPort : Obligations.IordAnswersPort := by
  intro s
  refine ⟨exec_iord .index s, fun hl => ?_, fun hl => ?_⟩
  · rw [exec_iord, ConfigPort.readPort_data_locked hl]
    rfl
  · rw [exec_iord, ConfigPort.readPort_data_unlocked hl, ConfigPort.cell_eq]

/-- Settles O34: row by row, the write of the port in the state and at the index the row names. -/
theorem portTransitionTable : Obligations.PortTransitionTable := by
  intro s v hdevsel
  simp only [exec_iowr]
  refine ⟨fun hl hv => ?_, fun hl hv => ?_, fun hl => ?_, fun hl hv => ?_, fun hl hv => ?_, fun hl hi hne => ?_,
    fun hl hi => ?_, fun hl hi => ?_⟩
  · rw [ConfigPort.write_locked hl, if_pos ⟨rfl, hv⟩, ConfigPort.key]
  · rw [ConfigPort.write_locked hl, if_neg fun h => hv h.2]
  · rw [ConfigPort.write_locked hl, if_neg nofun]
  · rw [ConfigPort.write_index_unlocked hl, if_pos hv, ConfigPort.key]
  · rw [ConfigPort.write_index_unlocked hl, if_neg hv]
  · rw [ConfigPort.write_data_of_shared hl hi, if_neg hne]
  · rw [ConfigPort.write_data_of_shared hl (hi ▸ hdevsel), if_pos hi]
  · rw [ConfigPort.write_data_of_not_shared hl hi]

/-- Settles O35: the read after the write reaches the same cell, and a cell at the address of the one written is that
cell. -/
theorem bankWriteReadsBack : Obligations.BankWriteReadsBack := by
  intro s v hbank hl
  refine ⟨_, exec_iowr .data v s, ?_, ConfigPort.write_data_idx .., fun d i hother => ?_⟩
  · rw [exec_iord, ConfigPort.readPort_write_data hbank hl]
  · have hne : cellAddress d i ≠ s.cp.cell := fun h => hother (cellAddress_inj h)
    exact s.cp.read_write_of_ne_cell s.cfg .data v hne

/-- Settles O40: of the transactions that reach the port only the named ones select a device; the selecting write is
the row of the shared sub-range. -/
theorem deviceSelect : Obligations.DeviceSelect := by
  refine ⟨fun i s t h hsel => ?_, fun s v hdevsel hbank hl hidx => ?_⟩
  · obtain hcp | ⟨p, v, rfl⟩ | hreset | hrestore := (exec_eq_next.mp h).cp_eq_or
    · exact absurd (congrArg ConfigPort.sel hcp) hsel
    · cases exec_eq_next.mp h
      obtain ⟨rfl, hl, hidx⟩ := ConfigPort.of_write_sel_ne hsel
      exact .inr (.inr ⟨v, rfl, hl, hidx⟩)
    · exact .inl hreset
    · exact .inr (.inl hrestore)
  · refine ⟨_, exec_iowr .data v s, ?_, ?_⟩
    · rw [ConfigPort.write_data_of_shared hl (hidx ▸ hdevsel), if_pos hidx]
      exact BitVec.toNat_setWidth ..
    · rw [ConfigPort.write_data_of_shared hl (hidx ▸ hdevsel), ← hidx]
      exact Memory.read_write_same hbank s.cp.idx.toNat v
end

section
/-!
PROOFS. The host operations of EXEMPLAR_NB (43_host_ops.md R181 to R183): where each value lies in the blob, byte by byte
and bit by bit, and what SNAPSHOT and RESTORE make of it.
-/
namespace Sys2Proof.Machine

/-! ## The registers in a blob (R56, R183) -/

/-- Bit `j` of byte `k` is bit `8 * k + j` of the little-endian value; bytes past the end count as 0x00 (R56). -/
theorem testBit_ofLittleEndian (bs : List Byte) (k : Nat) {j : Nat} (hj : j < 8) :
    (ofLittleEndian bs).testBit (8 * k + j) = (bs.getD k 0).getLsbD j := by
  induction bs generalizing k with
  | nil => simp [ofLittleEndian]
  | cons b bs ih =>
    have hval : ofLittleEndian (b :: bs) = 2 ^ 8 * ofLittleEndian bs + b.toNat := Nat.add_comm ..
    rw [hval, Nat.testBit_two_pow_mul_add _ b.isLt]
    cases k with
    | zero => simp [hj, BitVec.getLsbD]
    | succ k =>
      have hpast : 8 * (k + 1) + j - 8 = 8 * k + j := by omega
      rw [if_neg (by omega), hpast, ih, List.getD_cons_succ]

/-- A register's value in a blob, bit by bit: byte `k` of it lies `k` past the register's offset (R182, R183). -/
theorem Schema.blobReg_getLsbD {schema : Schema} (h : schema.Lawful) (b : Blob) (r : schema.StorageId) {k j : Nat}
    (hk : k < schema.blobSize r) (hj : j < 8) :
    (schema.blobReg b r).getLsbD (8 * k + j) = (blobByte b (schema.blobOffset r + k)).getLsbD j := by
  have hwidth : 8 * k + j < schema.width r := by
    have hsize := Schema.blobSize_spec h r
    omega
  have hbyte : ((b.drop (schema.blobOffset r)).take (schema.blobSize r)).getD k 0 =
      blobByte b (schema.blobOffset r + k) := by
    simp [blobByte, List.getD_eq_getElem?_getD, hk]
  rw [Schema.blobReg, BitVec.getLsbD_ofNat, testBit_ofLittleEndian _ _ hj, hbyte, decide_eq_true hwidth, Bool.true_and]

/-- Byte `k` of a register in the blob made from it is lane `k` of its value (R183). -/
theorem Schema.snapshotBlob_regByte {schema : Schema} (h : schema.Lawful) (rf : schema.Values) (cp : ConfigPort)
    (r : schema.StorageId) {k : Nat} (hk : k < schema.blobSize r) :
    blobByte (schema.snapshotBlob rf cp) (schema.blobOffset r + k) = (schema.get rf r).extractLsb' (8 * k) 8 := by
  apply BitVec.eq_of_getLsbD_eq
  intro j hj
  rw [← Schema.blobReg_getLsbD h _ r hk hj, Schema.blobReg_snapshotBlob h, BitVec.getLsbD_extractLsb', decide_eq_true hj,
    Bool.true_and]

/-! ## The port in a blob (R183) -/

/-- After the registers a blob holds the three fields of the port, then the bank (R183). -/
theorem Schema.snapshotBlob_portByte {schema : Schema} (rf : schema.Values) (cp : ConfigPort) (n : Nat) :
    blobByte (schema.snapshotBlob rf cp) (schema.blobRegBytes + n) =
      ([if cp.locked then 0x01 else 0x00, cp.sel.setWidth 8, cp.idx] ++ cp.bank.bytesFrom 0 bankSize).getD n 0x00 := by
  rw [blobByte, Schema.snapshotBlob, List.append_assoc, Schema.blobRegBytes, ← Schema.regBytes_length rf,
    List.getD_append_right _ _ _ _ (Nat.le_add_right ..), Nat.add_sub_cancel_left]

/-- The cells of the bank in a blob, by address (R183). -/
theorem Schema.snapshotBlob_cellByte {schema : Schema} (rf : schema.Values) (cp : ConfigPort) {a : Nat}
    (ha : a < bankSize) :
    blobByte (schema.snapshotBlob rf cp) (schema.blobRegBytes + 3 + a) = cp.bank.read a := by
  have hcell := Memory.bytesFrom_getD cp.bank 0 bankSize a ha 0x00
  rw [Nat.zero_add] at hcell
  rw [Nat.add_assoc, Schema.snapshotBlob_portByte, Nat.add_comm 3 a]
  exact hcell

/-- The cells a RESTORE loads, by address (R182, R183). -/
theorem restoredPort_read (b : Blob) (base a : Nat) :
    (restoredPort b base).bank.read a = blobByte b (base + 3 + a) := by
  have hread := Memory.read_ofBytesAt 0 (b.drop (base + 3)) a
  rw [Nat.zero_add] at hread
  rw [restoredPort, hread]
  simp [blobByte, List.getD_eq_getElem?_getD, Memory.unlisted]

/-! ## The layout of EXEMPLAR_NB and the registers it restores (R182, R183) -/

/-- The offsets of R183's table are those of the schema. -/
theorem blobOffset_of_mem_blobTable {r : StorageReg} {o : Nat} (h : (r, o) ∈ blobTable) : r.blobOffset = o := by
  have hall : ∀ p ∈ blobTable, p.1.blobOffset = p.2 := by decide
  exact hall (r, o) h

/-- What a RESTORE loads into a register (R182). -/
theorem restoredRf_get (cfg : Config) (b : Blob) (r : StorageReg) :
    (restoredRf cfg b).get r = sanitise (blobReg b r) r.writeMask (r.resetValue cfg) :=
  RegFile.get_ofValues (fun q => sanitise (blobReg b q) q.writeMask (q.resetValue cfg)) r

/-- A restored register bit by bit: the blob's bit under the write-mask, the reset value's elsewhere (R12, R182). -/
theorem restoredRf_getLsbD (cfg : Config) (b : Blob) (r : StorageReg) {k j : Nat} (hk : k < r.width / 8) (hj : j < 8) :
    ((restoredRf cfg b).get r).getLsbD (8 * k + j) =
      if r.writeMask.getLsbD (8 * k + j) then (blobByte b (r.blobOffset + k)).getLsbD j
      else (r.resetValue cfg).getLsbD (8 * k + j) := by
  rw [restoredRf_get, sanitise_getLsbD, blobReg, Schema.blobReg_getLsbD exemplarSchema_lawful b r hk hj]

/-! ## The two transactions on EXEMPLAR_NB (R181, R182) -/

/-- SNAPSHOT puts out the blob of RF and CP and answers 0 (R181). -/
theorem exec_snapshot (s : State) :
    exec .snapshot s = .next
      { s with blobsOut := s.blobsOut ++ [snapshotBlob s.rf s.cp], responses := s.responses ++ [0] } :=
  Tables.snapshot_eq (tables := exemplarNb) s

/-- RESTORE of a blob made from registers that meet R12 and a canonical port loads these (R182). -/
theorem exec_restore_snapshotBlob {w : State} {rf : RegFile} {cp : ConfigPort}
    (hblob : w.blobPort = snapshotBlob rf cp) (hres : rf.reservedKept w.cfg) (hbank : cp.bank.wf = true) :
    exec .restore w = .next
      { w with
        rf := rf
        cp := cp
        ri := resolve w.cfg rf
        installer := w.installer ++ installSequence (resolve w.cfg rf) } :=
  Tables.restore_snapshotBlob (tables := exemplarNb) exemplarSchema_lawful hblob hres hbank

end Sys2Proof.Machine

open Sys2Proof Sys2Proof.Machine

/-- Settles O42: the blob is read register by register, then field by field of the port, then cell by cell. -/
theorem snapshotResult : Obligations.SnapshotResult := by
  intro s
  have hport := Schema.snapshotBlob_portByte (schema := exemplarSchema) s.rf s.cp
  refine ⟨snapshotBlob s.rf s.cp, exec_snapshot s, Schema.snapshotBlob_length (schema := exemplarSchema) s.rf s.cp,
    fun r o k hro hk => ?_, hport 0, (hport 1).trans ?_, hport 2, fun d i => ?_⟩
  · rw [← blobOffset_of_mem_blobTable hro]
    exact Schema.snapshotBlob_regByte exemplarSchema_lawful s.rf s.cp r hk
  · exact BitVec.setWidth_eq_append (w := 8) (v := 4) (by decide)
  · rw [Nat.add_assoc]
    exact Schema.snapshotBlob_cellByte (schema := exemplarSchema) s.rf s.cp (cellAddress_lt d i)

/-- Settles O43: the state a completed RESTORE leaves, register by register and cell by cell; a blob of another length has
no meaning. -/
theorem restoreResult : Obligations.RestoreResult := by
  intro s
  refine ⟨fun hlen => ⟨_, exec_eq_next.mpr (.restore hlen), fun r o k j hro hk hj => ?_, decide_eq_true_iff, rfl, rfl,
    fun d i => ?_, rfl, rfl, rfl, rfl, rfl, rfl, rfl⟩, fun hlen => if_neg hlen⟩
  · rw [← blobOffset_of_mem_blobTable hro]
    exact restoredRf_getLsbD s.cfg s.blobPort r hk hj
  · rw [Nat.add_assoc]
    exact restoredPort_read s.blobPort blobLocked _

/-- Settles O44: the blob loads the registers and the port it was made from, by R12 and the bank's canonical form, and the
resolver's list of these registers is the installation by R34. -/
theorem snapshotThenRestore : Obligations.SnapshotThenRestore := by
  intro s hs
  refine ⟨snapshotBlob s.rf s.cp, _, exec_snapshot s, rfl, fun w hcfg => ?_⟩
  have hres : s.rf.reservedKept w.cfg := hcfg ▸ hs.reservedKept
  have hri : resolve w.cfg s.rf = s.ri := hcfg ▸ hs.derived.symm
  exact ⟨_, exec_restore_snapshotBlob (w := { w with blobPort := snapshotBlob s.rf s.cp }) rfl hres hs.bankWf, rfl, rfl,
    hri⟩
end

section
/-!
PROOFS. The absence of exceptions (60_exceptions.md R190, R192, R203): which requests a step answers, and the writes that
are discarded without a trace.
-/
namespace Sys2Proof.Machine

/-! ## The transactions that complete (R87, R182, R190) -/

/-- The id of a register is one of the sixteen (R14, R87). -/
theorem schemaIds_contains_of_regOfId {id : Byte} {r : Reg} (h : regOfId id = some r) : schemaIds.contains id = true := by
  rw [← regOfId_isSome_eq, h, Option.isSome_some]

/-- CFGWR of an id of the schema completes, discarded or stored (R102, R103). -/
theorem exists_completes_cfgwr {id : Byte} (hid : schemaIds.contains id = true) (data mask : Word) (s : State) :
    ∃ t, Completes (.cfgwr id data mask) s t := by
  rw [← regOfId_isSome_eq] at hid
  obtain ⟨r, hr⟩ := Option.isSome_iff_exists.mp hid
  cases r with
  | const c => exact ⟨_, .constDiscarded hr⟩
  | storage r =>
    cases hlock : s.rf.locked r with
    | true => exact ⟨_, .lockedDiscarded hr hlock⟩
    | false => exact ⟨_, .stored hr hlock⟩

section

variable {i : Instr} {s t : State}

theorem Completes.wellFormed (h : Completes i s t) : i.wellFormed = true := by
  cases h with
  | cfgrd hid | constDiscarded hid | lockedDiscarded hid | stored hid => exact schemaIds_contains_of_regOfId hid
  | nop | iord | iowr | lookup | reset | snapshot | restore => rfl

theorem Completes.blobPort_length (h : Completes .restore s t) : s.blobPort.length = 4120 := by
  cases h with
  | restore hlen => exact hlen

/-- Only an id outside the schema and a blob of another length keep a transaction from completing (R87, R182, R190). -/
theorem exists_completes_iff :
    (∃ t, Completes i s t) ↔ i.wellFormed = true ∧ (i = .restore → s.blobPort.length = 4120) := by
  constructor
  · rintro ⟨t, h⟩
    exact ⟨h.wellFormed, fun hi => (hi ▸ h).blobPort_length⟩
  · rintro ⟨hwf, hlen⟩
    cases i with
    | cfgrd id => exact exists_completes_cfgrd hwf s
    | cfgwr id data mask => exact exists_completes_cfgwr hwf data mask s
    | restore => exact ⟨_, .restore (hlen rfl)⟩
    | nop => exact ⟨_, .nop⟩
    | iord p => exact ⟨_, .iord⟩
    | iowr p v => exact ⟨_, .iowr⟩
    | lookup dir a => exact ⟨_, .lookup⟩
    | reset => exact ⟨_, .reset⟩
    | snapshot => exact ⟨_, .snapshot⟩

/-- A step answers by completing the transaction of its word, under valid parameters (R6, R86, R203). -/
theorem step_eq_next_iff :
    step s = .next t ↔ validConfig s.cfg = true ∧ ∃ i, decode s.nextTxn = .ok i ∧ Completes i s.accepted t := by
  constructor
  · intro h
    unfold step at h
    split at h
    · next hcfg =>
      split at h
      · exact nomatch h
      · next i hi => exact ⟨hcfg, i, hi, exec_eq_next.mp h⟩
    · exact nomatch h
  · rintro ⟨hcfg, i, hi, h⟩
    rw [step_of_decode hcfg hi]
    exact exec_eq_next.mpr h

end

/-! ## The writes that are discarded (R103, R165, R192) -/

/-- A CFGWR to a CONST register is discarded (R102, R192). -/
theorem exec_cfgwr_const_id (s : State) (c : ConstReg) (data mask : Word) : exec (.cfgwr c.id data mask) s = .next s :=
  exec_eq_next.mpr (.constDiscarded (regOfId_const_id c))

/-- Every port write in the state LOCKED but the unlock write is discarded (R165 rows T2, T3; R192). -/
theorem exec_iowr_of_locked {s : State} {p : Port} {v : Byte} (hl : s.cp.locked = true)
    (hnot : ¬ (p = .index ∧ v = s.cfg.unlockByte)) : exec (.iowr p v) s = .next s := by
  rw [exec_iowr, ConfigPort.write_locked hl, if_neg hnot]

end Sys2Proof.Machine

open Sys2Proof Sys2Proof.Machine

/-- Settles O6: the requests whose word decodes to a transaction that completes. -/
theorem answersExactlyInsideContract : Obligations.AnswersExactlyInsideContract := by
  intro s
  simp only [State.answers, step_eq_next_iff, ← exists_completes_iff]
  constructor
  · rintro ⟨t, hcfg, i, hi, h⟩
    exact ⟨hcfg, i, hi, t, h⟩
  · rintro ⟨hcfg, i, hi, t, h⟩
    exact ⟨t, hcfg, i, hi, h⟩

/-- Settles O12: the three discards, each leaving the state it was given. -/
theorem discardedWritesChangeNothing : Obligations.DiscardedWritesChangeNothing :=
  fun s => ⟨fun _ data mask hlock => exec_cfgwr_of_lockBitSet hlock data mask,
    fun data mask => ⟨exec_cfgwr_const_id s .devid data mask, exec_cfgwr_const_id s .revid data mask⟩,
    fun _ _ hl hnot => exec_iowr_of_locked hl hnot⟩
end

section
/-!
PROOFS. The reset and the two hazards of the configuration port (70_reset_and_hazards.md R210, R211, R215, R217).
-/
namespace Sys2Proof.Machine

section

variable {cfg : Config} {cp : ConfigPort}

/-! ## The index LOCK_BYTE (R161, R215) -/

/-- No data access reaches the index LOCK_BYTE: the index is another byte, or the lock key latched it and the port is
LOCKED. -/
def ConfigPort.avoidsLockIndex (cfg : Config) (cp : ConfigPort) : Prop :=
  cp.idx ≠ cfg.lockByte ∨ cfg.keyLatchesIndex = true ∧ cp.locked = true

theorem resetConfigPort_avoidsLockIndex (h : cfg.lockByte ≠ 0) : (resetConfigPort cfg).avoidsLockIndex cfg :=
  .inl h.symm

/-- The unlock key keeps the index, which then no lock key had latched, or latches UNLOCK_BYTE (R166). -/
theorem ConfigPort.avoidsLockIndex_unlock (hkeys : cfg.unlockByte ≠ cfg.lockByte) (h : cp.avoidsLockIndex cfg) :
    (cp.key cfg false cfg.unlockByte).avoidsLockIndex cfg := by
  refine .inl ?_
  cases hlatch : cfg.keyLatchesIndex with
  | true => simpa [ConfigPort.key, hlatch] using hkeys
  | false => simpa [ConfigPort.key, ConfigPort.avoidsLockIndex, hlatch] using h

/-- The lock key keeps the index, or latches LOCK_BYTE in a port that is then LOCKED (R166). -/
theorem ConfigPort.avoidsLockIndex_lock (h : cp.avoidsLockIndex cfg) :
    (cp.key cfg true cfg.lockByte).avoidsLockIndex cfg := by
  cases hlatch : cfg.keyLatchesIndex with
  | true => exact .inr ⟨hlatch, rfl⟩
  | false => exact .inl (by simpa [ConfigPort.key, ConfigPort.avoidsLockIndex, hlatch] using h)

/-- Every port write keeps the index LOCK_BYTE out of reach: while UNLOCKED, writing that byte to the index port is the
lock key (R161). -/
theorem ConfigPort.avoidsLockIndex_write (hkeys : cfg.unlockByte ≠ cfg.lockByte) (h : cp.avoidsLockIndex cfg)
    (p : Port) (v : Byte) : (cp.write cfg p v).avoidsLockIndex cfg := by
  cases hl : cp.locked with
  | true =>
    rw [ConfigPort.write_locked hl]
    split
    · next hkey => exact hkey.2 ▸ ConfigPort.avoidsLockIndex_unlock hkeys h
    · exact h
  | false =>
    cases p with
    | index =>
      rw [ConfigPort.write_index_unlocked hl]
      split
      · next hv => exact hv ▸ ConfigPort.avoidsLockIndex_lock h
      · next hv => exact .inl hv
    | data =>
      rw [ConfigPort.write_data_unlocked hl]
      exact h

/-- A write in the state LOCKED stores in no cell (R32). -/
theorem ConfigPort.write_locked_bank (hl : cp.locked = true) (p : Port) (v : Byte) :
    (cp.write cfg p v).bank = cp.bank := by
  rw [ConfigPort.write_locked hl]
  split <;> rfl

/-- A port write stores in no cell at the index LOCK_BYTE, of whichever device (R215). -/
theorem ConfigPort.read_lockIndex_write (h : cp.avoidsLockIndex cfg) (p : Port) (v : Byte) (d : BitVec 4) :
    (cp.write cfg p v).bank.read (cellAddress d cfg.lockByte) = cp.bank.read (cellAddress d cfg.lockByte) := by
  obtain hidx | ⟨-, hl⟩ := h
  · exact cp.read_write_of_ne_cell cfg p v fun hcell => hidx (cellAddress_inj hcell).2.symm
  · rw [ConfigPort.write_locked_bank hl]

/-! ## Locking and unlocking (R166, R217) -/

/-- With KEY_LATCHES_INDEX false a key write turns `locked` and nothing else. -/
theorem ConfigPort.key_of_not_latches (hlatch : cfg.keyLatchesIndex = false) (locked : Bool) (v : Byte) :
    cp.key cfg locked v = { cp with locked := locked } := by
  simp [ConfigPort.key, hlatch]

end

/-! ## RESET of the reset state (R180, R210, R211) -/

section

variable {s : State}

/-- A resolver run on an installation that is already the resolver's list only sends it again. -/
theorem State.runResolver_of_derived (h : s.ri = resolve s.cfg s.rf) :
    s.runResolver = { s with installer := s.installer ++ installSequence s.ri } := by
  rw [h]
  rfl

/-- RESET of registers and a port that hold their reset values is a resolver run. -/
theorem exec_reset_of_resetValues (hrf : s.rf = resetRegFile s.cfg) (hcp : s.cp = resetConfigPort s.cfg) :
    exec .reset s = .next s.runResolver := by
  rw [exec_eq_next.mpr .reset, ← hrf, ← hcp]
  rfl

end

/-- The reset state's installation is the resolver's list (R34, R210). -/
theorem reset_derived : State.reset.ri = resolve State.reset.cfg State.reset.rf := resolve_resetRegFile_default.symm

/-- The reset state's stream is the one reset sequence: the list of R210, sent (R129, R211). -/
theorem reset_installer : State.reset.installer = installSequence State.reset.ri := by decide +kernel

/-- The reset state has the invariants (R12, R34, R139). -/
theorem reset_inv : State.reset.Inv where
  paramsValid := by decide
  reservedKept := resetRegFile_reservedKept Config.default
  bankWf := rfl
  derived := reset_derived

end Sys2Proof.Machine

open Sys2Proof Sys2Proof.Machine

/-- Settles O38: port writes and RESET keep LOCK_BYTE's index out of reach, every other transaction keeps the port; and
out of reach, no port write stores in a cell there. -/
theorem lockByteIndexUnreachable : Obligations.LockByteIndexUnreachable := by
  intro i s t hkeys hzero hrestore h havoids
  have hc := exec_eq_next.mp h
  suffices t.cp.avoidsLockIndex s.cfg ∧ (i ≠ .reset → ∀ d : BitVec 4,
      t.cp.bank.read (cellAddress d s.cfg.lockByte) = s.cp.bank.read (cellAddress d s.cfg.lockByte)) by
    rw [hc.cfg_eq]
    exact this
  obtain hcp | ⟨p, v, rfl⟩ | rfl | hi := hc.cp_eq_or
  · rw [hcp]
    exact ⟨havoids, fun _ _ => rfl⟩
  · cases hc
    exact ⟨ConfigPort.avoidsLockIndex_write hkeys havoids p v,
      fun _ d => ConfigPort.read_lockIndex_write havoids p v d⟩
  · cases hc
    exact ⟨resetConfigPort_avoidsLockIndex hzero, fun hi => absurd rfl hi⟩
  · exact absurd hi hrestore

/-- Settles O37: each key write turns `locked`, and the second turns it back. -/
theorem portSurvivesLock : Obligations.PortSurvivesLock := by
  intro s hlatch hl
  constructor
  · rw [exec_iowr, ConfigPort.write_index_unlocked hl, if_pos rfl, ConfigPort.key_of_not_latches hlatch]
  · have hback : ({ s.cp with locked := false } : ConfigPort) = s.cp := by rw [← hl]
    rw [exec_iowr, ConfigPort.write_locked rfl, if_pos ⟨rfl, rfl⟩, ConfigPort.key_of_not_latches hlatch, hback]

/-- Settles O55: the reset state holds the reset values and the resolver's list, so RESET sends that list again, and its
stream is that list sent once. -/
theorem resetHasInvariants : Obligations.ResetHasInvariants := by
  refine ⟨reset_inv, ?_, ?_⟩
  · rw [exec_reset_of_resetValues rfl rfl, State.runResolver_of_derived reset_derived, ← reset_installer]
  · rw [← reset_derived]
    exact reset_installer
end
